-- ==== Sys2Proof/Word.lean ====
section
/-! DEFINITION. The word types of the block (spec/00_scope.md R6, R13) and their plainest arithmetic. -/

namespace Sys2Proof

/-- A byte of the memory image, and the value of one operand field: `FIELD_BITS = 8` (R6). -/
abbrev Byte := BitVec 8

/-- A raw 16-bit halfword, which is also an index of the decode table: `OPCODE_BITS = 16` (R6). -/
abbrev Opcode := BitVec 16

/-- A register of the register file, the program counter among them: `REG_BITS = 32` (R6). -/
abbrev Word := BitVec 32

/-- `mask(w) = 2^w - 1` (R13), as a natural number. -/
def lowMask (w : Nat) : Nat := 2 ^ w - 1

end Sys2Proof
end

