-- ==== Sys2Proof/Syntax.lean ====
section
/-! DEFINITION. The syntax of the block: instruction tags and decoded values (R7, R14, R22), the catalog's records
(R57, R58, R80), the shape of the decode table (R21), and `Instr`, one constructor per row of spec/opcode_table.json. -/

namespace Sys2Proof

/-- The instruction tags, "one tag per instruction form" (R7). The five the source names have a constructor each;
`other n` is the `n`-th further tag of a configured catalog, which the source does not list (R5, R7). -/
inductive Tag where
  | undefined
  | nop
  | addImm
  | addRegister
  | branch
  | other (n : Nat)
deriving DecidableEq, Repr

/-- The names of operand fields: the three the source gives for `AddImm` (R7), and those of a configured catalog. -/
inductive FieldName where
  | rd
  | rdn
  | imm
  | other (n : Nat)
deriving DecidableEq, Repr

/-- A decoded instruction (R22): a tag and an 8-bit value for each field name. The fields stand in the order of
`FIELDS(tag)`, so that two values of one configuration are equal as R14 says exactly when they are equal data. -/
structure InstrValue where
  tag : Tag
  fields : List (FieldName × Byte)
deriving DecidableEq, Repr

/-- One operand of an encoding (R57). `forced` is the spec's `default`: a fixed field value that packs no bits (R88). -/
structure OperandSpec where
  name : FieldName
  width : Nat
  shift : Nat
  forced : Option Byte
deriving DecidableEq, Repr

/-- One concrete bit layout of an instruction (R58). -/
structure EncodingSpec where
  tag : Tag
  base : Opcode
  operands : List OperandSpec
deriving DecidableEq, Repr

/-- The ordered catalog the generator expands (R8, R80). -/
abbrev Catalog := List (Tag × List EncodingSpec)

/-- The storage of a table with `2^d` entries, as a binary tree of depth `d`: the entry of an index lies at the leaf
that the index's bits lead to, the most significant bit first. The decode table is the tree of depth 16, which has
exactly the 65,536 entries of R21; `Machine.tableGet` and `Machine.tableSet` read and write it as an array. -/
inductive DecodeTable where
  | leaf (v : InstrValue)
  | node (zero one : DecodeTable)
deriving DecidableEq, Repr

/-- The instructions of spec/opcode_table.json, one constructor per row. The tags a configured catalog adds
(`AddRegister`, `Branch`, two-halfword tags, R132 to R137) have no row there: the dispatcher runs them on their
decoded value (Machine/Dispatcher.lean). -/
inductive Instr where
  /-- `AddImm`, base `0x1C00` (R63): three 3-bit fields. -/
  | addImm3 (rd rdn imm : BitVec 3)
  /-- `AddImm`, base `0x3000` (R64): a 3-bit and an 8-bit field, with `rd` forced to `0xFF`. -/
  | addImm8 (rdn : BitVec 3) (imm : Byte)
  /-- `Nop`, `0xBF00` (R65). -/
  | nop
  /-- `Undefined`, every opcode that no encoding writes (R69). The opcode is kept: the terminal result records it (R152). -/
  | undefined (raw : Opcode)
deriving DecidableEq, Repr

end Sys2Proof
end

