-- ==== Sys2Proof/Config.lean ====
section
/-! DEFINITION. What is fixed for one block: the configuration (R5, R7 to R9, R12), the reference catalog `C0` (R66),
the types of the units around the block (register file R30, memory image R40, execution unit R126), and the values
the spec leaves open, as constants without a body. -/

namespace Sys2Proof

/-- The configuration of a block (R20: `CATALOG`, `TAGS`, `FIELDS`, `LEN`, `IMPL`, `COLLISION_REPORT`). -/
structure Configuration where
  /-- `CATALOG` (R8). -/
  catalog : Catalog
  /-- `TAGS` (R7). -/
  tags : List Tag
  /-- `FIELDS` (R7), for the tags whose field list the spec does not fix; read it with `Machine.fieldsOf`. -/
  fieldNames : List (Tag × List FieldName)
  /-- The tags with `LEN = 2` (R9); read it with `Machine.lenOf`. -/
  twoHalfword : List Tag
  /-- The tags with `IMPL = true` (R9); read it with `Machine.implemented`. -/
  implementedTags : List Tag
  /-- `COLLISION_REPORT` (R12). -/
  collisionReport : Bool
deriving DecidableEq, Repr

/-- The encoding of `AddImm` at base `0x1C00` (R63). -/
def Config.addImmEncoding3 : EncodingSpec :=
  { tag := .addImm, base := 0x1C00,
    operands := [ { name := .rd, width := 3, shift := 0, forced := none },
                  { name := .rdn, width := 3, shift := 3, forced := none },
                  { name := .imm, width := 3, shift := 6, forced := none } ] }

/-- The encoding of `AddImm` at base `0x3000`, with `rd` forced to `0xFF` (R64). -/
def Config.addImmEncoding8 : EncodingSpec :=
  { tag := .addImm, base := 0x3000,
    operands := [ { name := .imm, width := 8, shift := 0, forced := none },
                  { name := .rdn, width := 3, shift := 8, forced := none },
                  { name := .rd, width := 0, shift := 0, forced := some 0xFF } ] }

/-- The encoding of `Nop` (R65). -/
def Config.nopEncoding : EncodingSpec := { tag := .nop, base := 0xBF00, operands := [] }

/-- The reference catalog `C0` (R66): exactly the encodings the source gives. -/
def Config.catalogC0 : Catalog :=
  [ (.addImm, [Config.addImmEncoding3, Config.addImmEncoding8]), (.nop, [Config.nopEncoding]) ]

/-- The configuration of `State.reset`: `C0`, `LEN = 1` for every tag (R66) and `COLLISION_REPORT = off` (R12).
DESIGN CHOICE (log entry 3): `IMPL(AddImm) = true`, where the spec leaves `IMPL` open (R9). -/
def Config.reference : Configuration :=
  { catalog := Config.catalogC0
    tags := [.undefined, .addImm, .nop]
    fieldNames := [(.addImm, [.rd, .rdn, .imm])]
    twoHalfword := []
    implementedTags := [.addImm]
    collisionReport := false }

/-- The registers of the register file other than the program counter (R30). The execution unit reads and writes
these and no other (R126): the program counter has no name here, so a unit cannot write it. -/
inductive RegId where
  /-- `R0` to `R12`. -/
  | gpr (n : Fin 13)
  /-- The first of the "two stack-pointer aliases". -/
  | stackPointerA
  /-- The second of the "two stack-pointer aliases". -/
  | stackPointerB
  /-- The link register. -/
  | link
  /-- The `n`-th of the "status registers", whose number the source does not give. -/
  | status (n : Nat)
deriving DecidableEq, Repr

/-- The register file (R30): "R0–R12, two stack-pointer aliases, link register, program counter, and status
registers", each 32 bits wide. -/
structure RegFile where
  gpr : Vector Word 13
  stackPointerA : Word
  stackPointerB : Word
  link : Word
  pc : Word
  status : List Word
deriving DecidableEq, Repr

/-- The bytes of the memory image (R40), as the list of those that differ from `Config.unlistedByte`: addresses
strictly rising, no listed byte equal to it (`Machine.memWf`). -/
abbrev Memory := List Host.Cell

/-- What an address of the image reads as when it is not listed. `load` supplies every byte of the image (R180), so
this is a way of writing the image down and says nothing about the hardware (log entry 6). -/
def Config.unlistedByte : Byte := 0

/-- What the dispatcher sends to the execution unit (R126). `raw2` is the undecoded second halfword (R72). -/
structure ExecRequest where
  value : InstrValue
  pc : Word
  raw : Opcode
  raw2 : Option Opcode
deriving DecidableEq, Repr

/-- What an answer of the execution unit may depend on: the request, the register file and the memory image, which
it may read (R126), and how many requests it has answered before, so that a unit with state of its own is covered. -/
structure ExecInput where
  request : ExecRequest
  regs : RegFile
  mem : Memory
  memSize : Nat
  serial : Nat
deriving DecidableEq, Repr

/-- The outcome an execution unit reports (R126). -/
inductive ExecOutcome where
  | sequential
  | jump (target : Word)
  | halt
  | error (code : Nat)
  | dataOutOfBounds (addr : Word)
deriving DecidableEq, Repr, Inhabited

/-- An answer of the execution unit: the outcome, and the register and memory effects it made before answering, each
in order (R126, R158). -/
structure ExecAnswer where
  outcome : ExecOutcome
  regWrites : List (RegId × Word)
  stores : List (Nat × Byte)
deriving DecidableEq, Repr, Inhabited

/-- Whether the execution unit answers. A unit that never answers hangs the run (R189). -/
inductive ExecReply where
  | answered (a : ExecAnswer)
  | noAnswer
deriving DecidableEq, Repr, Inhabited

/-- The external execution unit `EXEC` (R11, R126), a parameter of the block. -/
abbrev ExecUnit := ExecInput → ExecReply

/-- The execution unit of this block. Nothing constrains it: what is proved of it holds for every unit (R11). It is the
free value for the instruction semantics that R4 puts outside the block (log entry 1). -/
opaque Config.execUnit : ExecUnit

/-- The value of a register of the register file at reset: unspecified (R30, R39, U10; log entry 2). -/
opaque Config.resetRegister : RegId → Word

/-- The status registers at reset, in a number and with values that the spec leaves open (R30; log entry 2). -/
opaque Config.resetStatus : List Word

/-- The program counter before the first `load`: unspecified and never read (R29, U10; log entry 2). -/
opaque Config.resetPc : Word

/-- `mem_size` before the first `load`: unspecified and never read (R27; log entry 2). -/
opaque Config.resetMemSize : Nat

end Sys2Proof
end

