-- ==== Sys2Proof/Machine/Operands.lean ====
section
/-! DEFINITION. Operand forms: the per-tag parameters (R7, R9), operand masks (R59), operand ranges and combinations
(R85, R86), packing a combination into an opcode (R87, R88), the decoded value of a combination (R89), and its inverse
(R60, R115). -/

namespace Sys2Proof.Machine

/-! ## Per-tag parameters -/

/-- `FIELDS(t)` (R7): `Undefined` and `Nop` have no fields; `AddImm` has `[rd, rdn, imm]` (R66, D29) unless the
configuration lists its fields. -/
def fieldsOf (cfg : Configuration) : Tag → List FieldName
  | .undefined => []
  | .nop => []
  | .addImm => (cfg.fieldNames.lookup .addImm).getD [.rd, .rdn, .imm]
  | .addRegister => (cfg.fieldNames.lookup .addRegister).getD []
  | .branch => (cfg.fieldNames.lookup .branch).getD []
  | .other n => (cfg.fieldNames.lookup (.other n)).getD []

/-- `LEN(t)`, in halfwords (R9): 1 for `Undefined`, `Nop` and `AddImm`, and 1 or 2 as configured for any other tag. -/
def lenOf (cfg : Configuration) : Tag → Nat
  | .undefined => 1
  | .nop => 1
  | .addImm => 1
  | .addRegister => if cfg.twoHalfword.contains .addRegister then 2 else 1
  | .branch => if cfg.twoHalfword.contains .branch then 2 else 1
  | .other n => if cfg.twoHalfword.contains (.other n) then 2 else 1

/-- `IMPL(t)` (R9). The dispatcher does not consult it for `Undefined` and `Nop` (R130, R131). -/
def implemented (cfg : Configuration) (t : Tag) : Bool := cfg.implementedTags.contains t

/-! ## Decoded values -/

/-- `zero(t)`: the value of tag `t` with every field 0 (R14), which `ctor()` yields (R58, R61). -/
def zeroValue (cfg : Configuration) (t : Tag) : InstrValue :=
  { tag := t, fields := (fieldsOf cfg t).map fun f => (f, 0) }

/-- `v with {f := a}` (R15); a name the value does not have changes nothing (R89). -/
def setField (v : InstrValue) (f : FieldName) (a : Byte) : InstrValue :=
  { v with fields := v.fields.map fun p => if p.1 = f then (p.1, a) else p }

/-- The value of field `f`, where the value has one. -/
def fieldOf (v : InstrValue) (f : FieldName) : Option Byte := v.fields.lookup f

/-! ## Masks -/

/-- `opmask(op)` (R59): a defaulted operand contributes no bits. -/
def opMask (op : OperandSpec) : Opcode :=
  match op.forced with
  | none => BitVec.ofNat 16 (lowMask op.width <<< op.shift)
  | some _ => 0

/-- `M_e`, the operand mask of an encoding (R59). -/
def operandMask (e : EncodingSpec) : Opcode := e.operands.foldl (fun m op => m ||| opMask op) 0

/-- `F_e`, the fixed mask of an encoding (R59). -/
def fixedMask (e : EncodingSpec) : Opcode := ~~~ operandMask e

/-- Whether opcode `x` lies in the match set of `e`: `x & F_e = e.base` (R96, R115). -/
def inMatchSet (e : EncodingSpec) (x : Opcode) : Bool := x &&& fixedMask e == e.base

/-! ## Ranges and combinations -/

/-- `Range(op)` (R85), ascending. `none` is the placeholder `⋆` of a defaulted operand's one iteration. -/
def operandRange (op : OperandSpec) : List (Option Nat) :=
  match op.forced with
  | none => (List.range (2 ^ op.width)).map some
  | some _ => [none]

/-- `Combos` of a list of operands (R86): the first operand is the outermost loop. -/
def combos : List OperandSpec → List (List (Option Nat))
  | [] => [[]]
  | op :: ops => (operandRange op).flatMap fun c => (combos ops).map (c :: ·)

/-- `pack(op, v)` (R87): a defaulted operand packs nothing, whatever its width and shift (R88). -/
def packOperand (op : OperandSpec) (c : Option Nat) : Nat :=
  match op.forced, c with
  | none, some v => v <<< op.shift
  | none, none => 0
  | some _, _ => 0

/-- `idx(e, c)` (R87): base and packed operands joined by OR, cut to 16 bits. -/
def comboIndex (e : EncodingSpec) (c : List (Option Nat)) : Opcode :=
  BitVec.ofNat 16 ((e.operands.zip c).foldl (fun acc p => acc ||| packOperand p.1 p.2) e.base.toNat)

/-- `fieldval(op, v)` (R89): the default where there is one, else the low 8 bits of the unpacked value. -/
def fieldValue (op : OperandSpec) (c : Option Nat) : Byte :=
  match op.forced, c with
  | some d, _ => d
  | none, some v => BitVec.ofNat 8 v
  | none, none => 0

/-- `inst(e, c)` (R89): the zero value of the encoding's tag with the fields its operands name filled in. -/
def comboValue (cfg : Configuration) (e : EncodingSpec) (c : List (Option Nat)) : InstrValue :=
  (e.operands.zip c).foldl (fun v p => setField v p.1.name (fieldValue p.1 p.2)) (zeroValue cfg e.tag)

/-! ## Extraction -/

/-- `unpack(op, x)` (R115): the unsigned field of the opcode (R60), or `⋆` for a defaulted operand. -/
def unpackOperand (op : OperandSpec) (x : Opcode) : Option Nat :=
  match op.forced with
  | none => some ((x.toNat >>> op.shift) &&& lowMask op.width)
  | some _ => none

/-- The combination of `e` that an opcode of its match set stands for (R96(c), R115). -/
def unpackCombo (e : EncodingSpec) (x : Opcode) : List (Option Nat) := e.operands.map (unpackOperand · x)

end Sys2Proof.Machine
end

