-- ==== Sys2Proof/Machine/CatalogChecks.lean ====
section
/-! DEFINITION. The named checks WF1 to WF8 of an encoding (R83), each a Bool. -/

namespace Sys2Proof.Machine

/-- `N(e)`: the operands of `e` without a default (R83). -/
def nonDefaulted (e : EncodingSpec) : List OperandSpec := e.operands.filter (·.forced.isNone)

/-- WF1 `TagAgree`: the encoding builds its entry's tag (R82). -/
def tagAgree (entryTag : Tag) (e : EncodingSpec) : Bool := e.tag == entryTag

/-- WF2 `FieldExists`: every operand names a field of the tag. -/
def fieldExists (cfg : Configuration) (e : EncodingSpec) : Bool :=
  e.operands.all fun op => (fieldsOf cfg e.tag).contains op.name

/-- WF3 `DistinctNames`: the operands' names are pairwise distinct. -/
def distinctNames (e : EncodingSpec) : Bool := decide (e.operands.map (·.name)).Nodup

/-- WF4 `WidthRange`: every width is at most 16. -/
def widthRange (e : EncodingSpec) : Bool := e.operands.all fun op => op.width ≤ 16

/-- WF5 `FieldFits`: an operand without a default fits its 8-bit field. -/
def fieldFits (e : EncodingSpec) : Bool := (nonDefaulted e).all fun op => op.width ≤ 8

/-- WF6 `InRange`: an operand without a default lies inside the opcode, unless it has no bits. -/
def inRange (e : EncodingSpec) : Bool :=
  (nonDefaulted e).all fun op => op.width == 0 || op.width + op.shift ≤ 16

/-- WF7 `NoOverlapOperands`: the bits of two operands without a default do not overlap. -/
def noOverlapOperands (e : EncodingSpec) : Bool :=
  decide ((nonDefaulted e).Pairwise fun op op' => opMask op &&& opMask op' = 0)

/-- WF8 `NoOverlapBase`: the operands' bits do not overlap the base's. -/
def noOverlapBase (e : EncodingSpec) : Bool := e.base &&& operandMask e == 0

end Sys2Proof.Machine
end

