-- ==== Sys2Proof/WellFormed.lean ====
section
/-! DEFINITION. What is well-formed: a configuration, whose catalog passes WF1 to WF8 (R83) and which is refused by
check name and entry where one fails (R84), and an instruction of the opcode table. -/

namespace Sys2Proof

/-- The checks of R83, by name. -/
inductive CatalogCheck where
  | tagAgree
  | fieldExists
  | distinctNames
  | widthRange
  | fieldFits
  | inRange
  | noOverlapOperands
  | noOverlapBase
deriving DecidableEq, Repr

/-- Why a configuration is refused at the configuration boundary (R84, R102), before any block exists. -/
inductive ConfigRefusal where
  /-- Encoding number `encoding` of catalog entry number `entry` (both from 0) fails the named check. -/
  | catalog (check : CatalogCheck) (entry encoding : Nat)
  /-- Catalog entry number `entry` has a tag that is not in `TAGS` (R58). -/
  | unknownTag (entry : Nat)
  /-- `TAGS` lacks `Undefined`, or lists a tag twice (R7). -/
  | tagSet
  /-- `FIELDS` of a tag repeats a name, or `FIELDS(AddImm)` lacks `rd`, `rdn` or `imm` (R7). -/
  | fieldList (tag : Tag)
deriving DecidableEq, Repr

/-- Whether an encoding of an entry with tag `entryTag` passes one check of R83. -/
def CatalogCheck.passes (cfg : Configuration) (entryTag : Tag) (e : EncodingSpec) : CatalogCheck → Bool
  | .tagAgree => Machine.tagAgree entryTag e
  | .fieldExists => Machine.fieldExists cfg e
  | .distinctNames => Machine.distinctNames e
  | .widthRange => Machine.widthRange e
  | .fieldFits => Machine.fieldFits e
  | .inRange => Machine.inRange e
  | .noOverlapOperands => Machine.noOverlapOperands e
  | .noOverlapBase => Machine.noOverlapBase e

/-- The checks in the order of R83's table. -/
def CatalogCheck.all : List CatalogCheck :=
  [.tagAgree, .fieldExists, .distinctNames, .widthRange, .fieldFits, .inRange, .noOverlapOperands, .noOverlapBase]

/-- The first check of R83 that an encoding fails, if any. -/
def Machine.failedCheck (cfg : Configuration) (entryTag : Tag) (e : EncodingSpec) : Option CatalogCheck :=
  CatalogCheck.all.find? fun c => !c.passes cfg entryTag e

/-- An encoding that passes every check of R83. -/
def Machine.encodingOk (cfg : Configuration) (entryTag : Tag) (e : EncodingSpec) : Bool :=
  CatalogCheck.all.all (·.passes cfg entryTag e)

/-- The refusals of the encodings of one entry, numbered from `j`. -/
def Machine.encodingRefusals (cfg : Configuration) (t : Tag) (entry : Nat) : Nat → List EncodingSpec → List ConfigRefusal
  | _, [] => []
  | j, e :: es =>
    ((Machine.failedCheck cfg t e).map fun c => ConfigRefusal.catalog c entry j).toList
      ++ Machine.encodingRefusals cfg t entry (j + 1) es

/-- The refusals of a catalog's entries, numbered from `i`. -/
def Machine.catalogRefusals (cfg : Configuration) : Nat → Catalog → List ConfigRefusal
  | _, [] => []
  | i, (t, es) :: rest =>
    (if cfg.tags.contains t then [] else [.unknownTag i])
      ++ Machine.encodingRefusals cfg t i 0 es ++ Machine.catalogRefusals cfg (i + 1) rest

/-- The tags whose field list a configuration may fix. -/
def Machine.listedTags (cfg : Configuration) : List Tag := .addImm :: cfg.fieldNames.map (·.1)

/-- Whether the field list of a tag is as R7 says: no name twice, and `rd`, `rdn` and `imm` among `AddImm`'s. -/
def Machine.fieldListOk (cfg : Configuration) (t : Tag) : Bool :=
  decide (Machine.fieldsOf cfg t).Nodup
    && (t != .addImm || [FieldName.rd, .rdn, .imm].all (Machine.fieldsOf cfg .addImm).contains)

/-- Every reason to refuse a configuration. -/
def Configuration.refusals (cfg : Configuration) : List ConfigRefusal :=
  (if cfg.tags.contains .undefined && decide cfg.tags.Nodup then [] else [.tagSet])
    ++ ((Machine.listedTags cfg).filter (!Machine.fieldListOk cfg ·)).map .fieldList
    ++ Machine.catalogRefusals cfg 0 cfg.catalog

/-- A configuration a block can be created with (R84): nothing refuses it. -/
def Configuration.wellFormed (cfg : Configuration) : Bool := cfg.refusals.isEmpty

/-- The configuration boundary (R84, R102): the configuration, or the first reason to refuse it. -/
def Configuration.accept (cfg : Configuration) : Except ConfigRefusal { c : Configuration // c.wellFormed = true } :=
  if h : cfg.wellFormed = true then .ok ⟨cfg, h⟩
  else
    match cfg.refusals with
    | r :: _ => .error r
    | [] => .error .tagSet

/-- An instruction is well-formed when it is what decoding some opcode under `C0` gives (R67): an `Undefined` carries
an opcode that no encoding of `C0` writes. Every other instruction is well-formed by its type. -/
def Instr.wellFormed : Instr → Bool
  | .addImm3 _ _ _ => true
  | .addImm8 _ _ => true
  | .nop => true
  | .undefined raw => raw &&& 0xFE00 != 0x1C00 && raw &&& 0xF800 != 0x3000 && raw != 0xBF00

end Sys2Proof
end

