-- ==== Sys2Proof/Decode.lean ====
section
/-! DEFINITION. The decoder of spec/opcode_table.json as a priority match/mask decoder (R115), total on halfwords (R112)
and rejecting by name a byte string too short for one; the encoder; and the decoded value each instruction stands for.
The decode table that the generator builds is Machine/Generator.lean's. -/

namespace Sys2Proof

/-- The little-endian halfword of two bytes (R42, R44): the byte at the lower address is bits 7 to 0. -/
def halfwordLE (low high : Byte) : Opcode := low.setWidth 16 ||| (high.setWidth 16 <<< 8)

/-- The two bytes of a halfword in memory order (R44). -/
def halfwordBytes (x : Opcode) : List Byte := [x.setWidth 8, (x >>> 8).setWidth 8]

/-- The instruction of an opcode: the rows of the table from the highest priority to the lowest (R63 to R67, R115). -/
def decode (x : Opcode) : Instr :=
  if x = 0xBF00 then .nop
  else if x &&& 0xF800 = 0x3000 then .addImm8 (x.extractLsb' 8 3) (x.extractLsb' 0 8)
  else if x &&& 0xFE00 = 0x1C00 then .addImm3 (x.extractLsb' 0 3) (x.extractLsb' 3 3) (x.extractLsb' 6 3)
  else .undefined x

/-- Why a byte string decodes to no instruction. -/
inductive DecodeRefusal where
  /-- Fewer bytes than the halfword of an instruction (R55). -/
  | tooShort
deriving DecidableEq, Repr

/-- Decode the first instruction of a byte string, giving the rest of it. -/
def decodeBytes : List Byte → Except DecodeRefusal (Instr × List Byte)
  | low :: high :: rest => .ok (decode (halfwordLE low high), rest)
  | _ => .error .tooShort

/-- The opcode of an instruction, from the encoding diagrams of R63, R64 and R65: the base and the operand fields, each
shifted to its place (R87). -/
def encode : Instr → Opcode
  | .addImm3 rd rdn imm => 0x1C00 ||| rd.setWidth 16 ||| rdn.setWidth 16 <<< 3 ||| imm.setWidth 16 <<< 6
  | .addImm8 rdn imm => 0x3000 ||| imm.setWidth 16 ||| rdn.setWidth 16 <<< 8
  | .nop => 0xBF00
  | .undefined raw => raw

/-- The decoded value an instruction stands for under `C0` (R67): the fields are zero-extended, never sign-extended
(R60), and the `0x3000` form of `AddImm` has the sentinel `0xFF` in `rd` (R64). -/
def Instr.value : Instr → InstrValue
  | .addImm3 rd rdn imm =>
    { tag := .addImm, fields := [(.rd, rd.setWidth 8), (.rdn, rdn.setWidth 8), (.imm, imm.setWidth 8)] }
  | .addImm8 rdn imm => { tag := .addImm, fields := [(.rd, 0xFF), (.rdn, rdn.setWidth 8), (.imm, imm)] }
  | .nop => { tag := .nop, fields := [] }
  | .undefined _ => { tag := .undefined, fields := [] }

/-- The instruction of the opcode table that a decoded value and its opcode are, if they are one: under `C0` they
always are (R67), under another catalog they need not be. -/
def instrOfDecoded (v : InstrValue) (raw : Opcode) : Option Instr :=
  if (decode raw).value = v then some (decode raw) else none

/-- The bytes, in memory order, of an instruction whose bits are `w`, numbered as spec/opcode_table.json numbers them:
the bits from `nbits` on are 0, up to the longest instruction, which has two halfwords (R55). -/
def tableWordBytes (nbits w : Nat) : List Byte :=
  let bits := w % 2 ^ nbits
  [0, 8, 16, 24].map fun shift => BitVec.ofNat 8 (bits >>> shift)

/-- The instruction the decoder reads from an instruction whose bits are `w`. -/
def decodeTableWord (nbits w : Nat) : Option Instr :=
  match decodeBytes (tableWordBytes nbits w) with
  | .ok (i, _) => some i
  | .error _ => none

end Sys2Proof
end

