-- ==== Sys2Proof/Machine/State.lean ====
section
/-! DEFINITION. The state of the block (R20) and of the units it owns (R29, R30, R36, R40), as plain data; the terminal
results (R150); the host's commands (R176); the reasons a step can stop; and the state at reset (R39, R175). -/

namespace Sys2Proof.Machine

/-- The phase of the block (R26). -/
inductive Phase where
  | uninitialized
  | loaded
  | running
  | terminated
deriving DecidableEq, Repr

/-- The kinds of terminal result (R151). -/
inductive TermKind where
  | halted
  | undefinedOpcode
  | unimplemented
  | fetchOutOfBounds
  | dataOutOfBounds
  | execError
  | misalignedFetch
deriving DecidableEq, Repr

/-- A terminal result (R150). -/
structure TerminalResult where
  kind : TermKind
  pc : Word
  addr : Option Word
  raw : Option Opcode
  value : Option InstrValue
  code : Option Nat
deriving DecidableEq, Repr

/-- What the host can ask of the block (R17, R113, R177). `initialise` is the spec's `initialize`. The entry of `load`
is a natural number, because an entry that does not fit in 32 bits is refused (R180). -/
inductive HostCommand where
  | initialise
  | load (entry : Nat) (image : List Byte)
  | run
  | debugRead (i : Opcode)
  | dump
deriving DecidableEq, Repr

/-- A line of the collision report: the opcode, the tag that was there, and the tag written over it (R100). -/
abbrev Collision := Opcode × Tag × Tag

/-- The state: the block's record of R20, the register file (R29, R30), the memory image (R40), the configuration, and
three fields of the model's own (`execCount`, `hostQueue`, `debugReply`). -/
structure State where
  /-- The configuration, a parameter of the step relation (R20) that no step writes. -/
  config : Configuration
  /-- R26. -/
  phase : Phase
  /-- R21: `none` until the first build. -/
  table : Option DecodeTable
  /-- R35. -/
  collisions : List Collision
  /-- R27. -/
  imageValid : Bool
  /-- R27: the byte size of the image, meaningful only when `imageValid`. -/
  memSize : Nat
  /-- R28. -/
  result : Option TerminalResult
  /-- R29 and R30: the register file, the program counter among it. -/
  regs : RegFile
  /-- R40: the bytes of the memory image. -/
  mem : Memory
  /-- The model's own: how many requests the execution unit has answered (log entry 1). -/
  execCount : Nat
  /-- The model's own: the commands the host has yet to issue, the next one first (R176, log entry 7). -/
  hostQueue : List HostCommand
  /-- The model's own: what the last DEBUG read returned to the host (R113, log entry 8). -/
  debugReply : Option (List (Opcode × InstrValue))
deriving DecidableEq, Repr

/-- The faults. Every exceptional condition of the spec is a terminal result, which is a next state (R150, R158). -/
inductive Fault where
  /-- Raised by the dispatcher's fetch while `imageValid` is false, when `mem_size` has no meaning (R27). No run gets
  there, since `run` needs a loaded image (R181). Safe: the model stops. -/
  | noImage
deriving DecidableEq, Repr

/-- The refusals: a request for which "the model has no step" (R118, R177). -/
inductive Refusal where
  /-- Raised by no arm of `exec` of this model: every instruction has its meaning. Safe. -/
  | notModelled (mnemonic : String)
  /-- Raised by a host command in a phase that does not admit it (R177). Safe: the model has no step for it. -/
  | commandNotAdmitted (phase : Phase)
  /-- Raised by `load` of an image of more than `2^32 - 1` bytes (R180). Safe: the model has no step for it. -/
  | imageTooLarge
  /-- Raised by `load` with an entry address that does not fit in 32 bits (R180). Safe: the model has no step for it. -/
  | entryTooWide
  /-- Raised by LOOKUP and by DEBUG before the first build (R118). Safe: the model has no step for it. -/
  | noTable
deriving DecidableEq, Repr

/-- The register file at reset: unspecified values (R30, R39), the constants without a body of log entry 2. -/
def RegFile.reset : RegFile :=
  { gpr := Vector.ofFn fun n => Config.resetRegister (.gpr n)
    stackPointerA := Config.resetRegister .stackPointerA
    stackPointerB := Config.resetRegister .stackPointerB
    link := Config.resetRegister .link
    pc := Config.resetPc
    status := Config.resetStatus }

/-- The block right after its creation with a configuration that the boundary admits (R84, R175). DESIGN CHOICE (log
entry 18): no byte of memory is listed, where the spec gives no contents before the first `load`. -/
def State.create (cfg : { c : Configuration // c.wellFormed = true }) : State :=
  { config := cfg.1
    phase := .uninitialized
    table := none
    collisions := []
    imageValid := false
    memSize := Config.resetMemSize
    result := none
    regs := RegFile.reset
    mem := []
    execCount := 0
    hostQueue := []
    debugReply := none }

/-- The state right after reset, with the reference configuration `C0` (R39, R66, R175). -/
def State.reset : State := State.create ⟨Config.reference, by decide⟩

end Sys2Proof.Machine
end

