-- ==== Sys2Proof/Machine/Ops.lean ====
section
/-! DEFINITION. The named operations: the decode table as an array (R21, R110), the memory image (R40, R42), the
register file (R29, R30), ending a run with a terminal result (R139, R158) and the retirement of a step (R127). -/

namespace Sys2Proof.Machine

/-! ## The decode table as an array -/

/-- The value every entry holds before any encoding is applied (R23, R91). -/
def undefinedValue : InstrValue := { tag := .undefined, fields := [] }

/-- The half of a tree's entries whose leading index bit is 0. -/
def zeroHalf : DecodeTable → DecodeTable
  | .leaf v => .leaf v
  | .node zero _ => zero

/-- The half of a tree's entries whose leading index bit is 1. -/
def oneHalf : DecodeTable → DecodeTable
  | .leaf v => .leaf v
  | .node _ one => one

/-- The value at a tree's first leaf. -/
def firstLeaf : DecodeTable → InstrValue
  | .leaf v => v
  | .node zero _ => firstLeaf zero

/-- Entry `i` of a tree of depth `d`, taking the index bits from bit `d - 1` down. -/
def treeGet : Nat → DecodeTable → Nat → InstrValue
  | 0, t, _ => firstLeaf t
  | d + 1, t, i => treeGet d (if i.testBit d then oneHalf t else zeroHalf t) i

/-- A tree of depth `d` with entry `i` replaced. -/
def treeSet : Nat → DecodeTable → Nat → InstrValue → DecodeTable
  | 0, _, _, v => .leaf v
  | d + 1, t, i, v =>
    if i.testBit d then .node (zeroHalf t) (treeSet d (oneHalf t) i v)
    else .node (treeSet d (zeroHalf t) i v) (oneHalf t)

/-- The tree of depth `d` whose entry `i` is `f (start + i)`. -/
def treeOfFn (f : Nat → InstrValue) : Nat → Nat → DecodeTable
  | 0, start => .leaf (f start)
  | d + 1, start => .node (treeOfFn f d start) (treeOfFn f d (start + 2 ^ d))

/-- Whether a tree has exactly the shape of depth `d`: `2^d` leaves, each at depth `d`. -/
def treeFull : Nat → DecodeTable → Bool
  | 0, .leaf _ => true
  | 0, .node _ _ => false
  | _ + 1, .leaf _ => false
  | d + 1, .node zero one => treeFull d zero && treeFull d one

/-- `T[i]` (R15). -/
def tableGet (T : DecodeTable) (i : Opcode) : InstrValue := treeGet 16 T i.toNat

/-- `T[i] <- v` (R15). -/
def tableSet (T : DecodeTable) (i : Opcode) (v : InstrValue) : DecodeTable := treeSet 16 T i.toNat v

/-- The table whose entry `x` is `f x`. -/
def tableOfFn (f : Opcode → InstrValue) : DecodeTable := treeOfFn (fun i => f (BitVec.ofNat 16 i)) 16 0

/-- Whether a table has exactly 65,536 entries (R21). -/
def tableFull (T : DecodeTable) : Bool := treeFull 16 T

/-! ## The memory image -/

/-- The canonical form of the image's bytes: addresses strictly rising, no listed byte equal to the unlisted one. -/
def memWf : Memory → Bool
  | [] => true
  | c :: m => c.2 != Config.unlistedByte && m.all (fun c' => c.1 < c'.1) && memWf m

/-- The byte at an address. -/
def memRead : Memory → Nat → Byte
  | [], _ => Config.unlistedByte
  | c :: m, a => if c.1 = a then c.2 else memRead m a

/-- Write a byte, keeping the canonical form. -/
def memWrite : Memory → Nat → Byte → Memory
  | [], a, b => if b = Config.unlistedByte then [] else [(a, b)]
  | c :: m, a, b =>
    if a < c.1 then (if b = Config.unlistedByte then c :: m else (a, b) :: c :: m)
    else if a = c.1 then (if b = Config.unlistedByte then m else (a, b) :: m)
    else c :: memWrite m a b

/-- The image of a byte buffer whose first byte lies at address `a` (R40, R180). -/
def memOfBytes : Nat → List Byte → Memory
  | _, [] => []
  | a, b :: bs => if b = Config.unlistedByte then memOfBytes (a + 1) bs else (a, b) :: memOfBytes (a + 1) bs

/-- Store bytes in order into an image of `size` bytes. A byte outside the image has no place in it (R40), so it
changes nothing (log entry 1). -/
def memStores (size : Nat) (m : Memory) (stores : List (Nat × Byte)) : Memory :=
  stores.foldl (fun m p => if p.1 < size then memWrite m p.1 p.2 else m) m

/-- `MemRead(addr, 2)` (R42): the little-endian halfword, or `none` for `OutOfBounds`. The bound is computed in
unbounded naturals, so no address wraps (R43). -/
def readHalfword (m : Memory) (size addr : Nat) : Option Opcode :=
  if addr + 2 > size then none else some (halfwordLE (memRead m addr) (memRead m (addr + 1)))

/-! ## The register file -/

/-- Read a register other than the program counter; `none` for a status register the file does not have. -/
def regRead (r : RegFile) : RegId → Option Word
  | .gpr n => some r.gpr[n]
  | .stackPointerA => some r.stackPointerA
  | .stackPointerB => some r.stackPointerB
  | .link => some r.link
  | .status n => r.status[n]?

/-- Write a register other than the program counter; a status register the file does not have changes nothing. -/
def regWrite (r : RegFile) (id : RegId) (w : Word) : RegFile :=
  match id with
  | .gpr n => { r with gpr := r.gpr.set n w }
  | .stackPointerA => { r with stackPointerA := w }
  | .stackPointerB => { r with stackPointerB := w }
  | .link => { r with link := w }
  | .status n => { r with status := r.status.set n w }

/-- Register writes, in order. -/
def regWrites (r : RegFile) (ws : List (RegId × Word)) : RegFile := ws.foldl (fun r p => regWrite r p.1 p.2) r

/-- `PC <- t` (R15). -/
def setPc (s : State) (t : Word) : State := { s with regs := { s.regs with pc := t } }

/-! ## Ending a run: what takes the place of exception entry -/

/-- `raise` (R15, R139, R158): the run ends, the result is kept, and nothing else changes: `PC` stays at the
instruction whose step raised, nothing is saved elsewhere, and control goes to no vector. -/
def raise (r : TerminalResult) (s : State) : State := { s with phase := .terminated, result := some r }

/-- The record of `MisalignedFetch` (R156). -/
def misalignedFetch (pc : Word) : TerminalResult :=
  { kind := .misalignedFetch, pc, addr := some pc, raw := none, value := none, code := none }

/-- The record of `FetchOutOfBounds` at the first halfword (R153). -/
def firstFetchOutOfBounds (pc : Word) : TerminalResult :=
  { kind := .fetchOutOfBounds, pc, addr := some pc, raw := none, value := none, code := none }

/-- The record of `FetchOutOfBounds` at the second halfword (R153, R124). -/
def secondFetchOutOfBounds (pc : Word) (raw : Opcode) (v : InstrValue) : TerminalResult :=
  { kind := .fetchOutOfBounds, pc, addr := some (pc + 2), raw := some raw, value := some v, code := none }

/-- The record of `UndefinedOpcode` (R152). -/
def undefinedOpcode (pc : Word) (raw : Opcode) : TerminalResult :=
  { kind := .undefinedOpcode, pc, addr := none, raw := some raw, value := none, code := none }

/-- The record of `Unimplemented` (R154). -/
def unimplemented (q : ExecRequest) : TerminalResult :=
  { kind := .unimplemented, pc := q.pc, addr := none, raw := some q.raw, value := some q.value, code := none }

/-- The record of `Halted` (R157). -/
def halted (q : ExecRequest) : TerminalResult :=
  { kind := .halted, pc := q.pc, addr := none, raw := some q.raw, value := some q.value, code := none }

/-- The record of `ExecError` (R157). -/
def execError (q : ExecRequest) (code : Nat) : TerminalResult :=
  { kind := .execError, pc := q.pc, addr := none, raw := some q.raw, value := some q.value, code := some code }

/-- The record of `DataOutOfBounds` (R155). -/
def dataOutOfBounds (q : ExecRequest) (addr : Word) : TerminalResult :=
  { kind := .dataOutOfBounds, pc := q.pc, addr := some addr, raw := some q.raw, value := some q.value, code := none }

/-! ## Retirement -/

/-- `PC <- pc0 + 2·LEN(tag)` (R127). -/
def advance (q : ExecRequest) (s : State) : State :=
  setPc s (q.pc + BitVec.ofNat 32 (2 * lenOf s.config q.value.tag))

/-- Retire a step by its outcome (R121, R127). -/
def retire (q : ExecRequest) (outcome : ExecOutcome) (s : State) : State :=
  match outcome with
  | .sequential => advance q s
  | .jump t => setPc s t
  | .halt => raise (halted q) s
  | .error code => raise (execError q code) s
  | .dataOutOfBounds a => raise (dataOutOfBounds q a) s

/-! ## Terminal result kinds -/

/-- The numeric code of a kind (R151). -/
def kindCode : TermKind → Nat
  | .halted => 0
  | .undefinedOpcode => 1
  | .unimplemented => 2
  | .fetchOutOfBounds => 3
  | .dataOutOfBounds => 4
  | .execError => 5
  | .misalignedFetch => 6

/-- Whether a kind is fatal to the current run (R151): every kind but `Halted`. -/
def kindFatal : TermKind → Bool
  | .halted => false
  | .undefinedOpcode => true
  | .unimplemented => true
  | .fetchOutOfBounds => true
  | .dataOutOfBounds => true
  | .execError => true
  | .misalignedFetch => true

end Sys2Proof.Machine
end

