-- ==== Sys2Proof/Machine/Generator.lean ====
section
/-! DEFINITION. The decode table generator (40_generator.md): the writes of a catalog in order (R93), the table they
build (R90), the collision report (R100), and the priority decoder that is equivalent to the table (R115). -/

namespace Sys2Proof.Machine

/-- One write `T[idx] <- inst`. -/
abbrev TableWrite := Opcode × InstrValue

/-- The encodings of a catalog in the order of R93. -/
def encodingsOf (cat : Catalog) : List EncodingSpec := cat.flatMap fun entry => entry.2

/-- The writes of one encoding, in `Combos` order: they depend on that encoding alone (R92). -/
def encodingWrites (cfg : Configuration) (e : EncodingSpec) : List TableWrite :=
  (combos e.operands).map fun c => (comboIndex e c, comboValue cfg e c)

/-- Every write of a build in the order of R93, which the sequencer of R107 emits one at a time. -/
def tableWrites (cfg : Configuration) : List TableWrite := (encodingsOf cfg.catalog).flatMap (encodingWrites cfg)

/-- The table before any encoding is applied: `Undefined` everywhere (R91). -/
def emptyTable : DecodeTable := tableOfFn fun _ => undefinedValue

/-- Make writes, in order. -/
def applyWrites (T : DecodeTable) (ws : List TableWrite) : DecodeTable := ws.foldl (fun T w => tableSet T w.1 w.2) T

/-- `build_table` (R90). -/
def buildTable (cfg : Configuration) : DecodeTable := applyWrites emptyTable (tableWrites cfg)

/-- The lines of the collision report that writes to a table make (R100): one for each write that replaces a value of
another tag, unless that tag is `Undefined`. -/
def collisionLines : DecodeTable → List TableWrite → List Collision
  | _, [] => []
  | T, w :: ws =>
    let old := (tableGet T w.1).tag
    let rest := collisionLines (tableSet T w.1 w.2) ws
    if old ≠ .undefined ∧ old ≠ w.2.tag then (w.1, old, w.2.tag) :: rest else rest

/-- The collision report (R100): empty unless `COLLISION_REPORT = on`. -/
def collisionReport (cfg : Configuration) : List Collision :=
  if cfg.collisionReport then collisionLines emptyTable (tableWrites cfg) else []

/-- `build` (R81): the table and the report, a total function of the catalog. -/
def build (cfg : Configuration) : DecodeTable × List Collision := (buildTable cfg, collisionReport cfg)

/-- The value a priority match/mask decoder gives an opcode (R115): that of the last encoding, in catalog order, whose
match set holds the opcode, and `Undefined` where there is none. -/
def priorityDecode (cfg : Configuration) (x : Opcode) : InstrValue :=
  (encodingsOf cfg.catalog).foldl
    (fun v e => if inMatchSet e x then comboValue cfg e (unpackCombo e x) else v) undefinedValue

/-- The table with the priority decoder's values, which cannot be told apart from the built one (R115). -/
def priorityTable (cfg : Configuration) : DecodeTable := tableOfFn (priorityDecode cfg)

end Sys2Proof.Machine
end

