-- ==== Sys2Proof/Machine/Lookup.lean ====
section
/-! DEFINITION. The indexed lookup MUX and the DEBUG read port (41_lookup_mux.md). -/

namespace Sys2Proof.Machine

/-- LOOKUP (R110): the entry of an opcode, or `none` while there is no table, when the request is refused (R118). -/
def lookup (s : State) (x : Opcode) : Option InstrValue := s.table.map (tableGet · x)

/-- `DebugRead(i) = (i, T[i])` (R113). -/
def debugEntry (T : DecodeTable) (i : Opcode) : Opcode × InstrValue := (i, tableGet T i)

/-- `Dump()` (R113): the 65,536 entries in ascending opcode order. -/
def dumpTable (T : DecodeTable) : List (Opcode × InstrValue) :=
  (List.range 65536).map fun i => debugEntry T (BitVec.ofNat 16 i)

end Sys2Proof.Machine
end

