-- ==== Sys2Proof/Machine/Bus.lean ====
section
/-! DEFINITION. The optional bus form of a decoded value (R62) and the table's storage size (R119). -/

namespace Sys2Proof.Machine

/-- The tags of a configuration in the order of their ids: `Undefined` first, then the others in the order the
catalog first names them (R62). -/
def tagOrder (cfg : Configuration) : List Tag :=
  .undefined :: ((cfg.catalog.map (·.1)).eraseDups.filter (· ≠ .undefined))

/-- The id of a tag, where it has one (R62): a tag that neither is `Undefined` nor stands in the catalog is never the
tag of a table entry (R104), and the spec gives it no id. -/
def tagId (cfg : Configuration) (t : Tag) : Option Nat := (tagOrder cfg).idxOf? t

/-- The least `k` with `n ≤ 2^k`: `ceil(log2 n)` for `n ≥ 1`. -/
def ceilLog2 (n : Nat) : Nat := if n ≤ 1 then 0 else Nat.log2 (n - 1) + 1

/-- `TAG_BITS = ceil(log2 |TAGS|)` (R62). -/
def tagBits (cfg : Configuration) : Nat := ceilLog2 cfg.tags.length

/-- `MAXF = max |FIELDS(t)|` (R62). -/
def maxFields (cfg : Configuration) : Nat := (cfg.tags.map fun t => (fieldsOf cfg t).length).foldl max 0

/-- The number whose 8-bit digits, the least significant first, are the values of the fields. -/
def fieldDigits : List (FieldName × Byte) → Nat
  | [] => 0
  | p :: ps => p.2.toNat + 2 ^ 8 * fieldDigits ps

/-- The bus word of a decoded value (R62): the tag id in the low bits, then the fields in order, 8 bits each. -/
def busWord (cfg : Configuration) (v : InstrValue) : Option Nat :=
  (tagId cfg v.tag).map fun id => id + 2 ^ tagBits cfg * fieldDigits v.fields

/-- The width of a bus word (R119). -/
def busWidth (cfg : Configuration) : Nat := tagBits cfg + 8 * maxFields cfg

end Sys2Proof.Machine
end

