-- ==== Sys2Proof/Machine/Flags.lean ====
section
/-! DEFINITION. Flags. The block has no flags or condition codes, and no rule of it reads or writes one (R31): flags
belong to the status registers of the register file, which the execution unit alone writes (R30, R126). So no flag is
computed here; this file only says where flags lie. -/

namespace Sys2Proof.Machine

/-- The status registers, which hold whatever flags the execution unit keeps (R31). -/
def flagRegisters (s : State) : List Word := s.regs.status

end Sys2Proof.Machine
end

