-- ==== Sys2Proof/Machine/External.lean ====
section
/-! DEFINITION. The EXEC interface (R126) and the arms of Execute that use it: an implemented tag (R132) and an
unimplemented one (R137). Every definition takes the execution unit as an argument (R11). -/

namespace Sys2Proof.Machine

/-- What the execution unit sees of a request (R126). -/
def execInput (q : ExecRequest) (s : State) : ExecInput :=
  { request := q, regs := s.regs, mem := s.mem, memSize := s.memSize, serial := s.execCount }

/-- The register and memory effects that an answer reports, which stand whatever its outcome (R126, R158). The program
counter is not among them, and neither is any field of the block. -/
def applyAnswer (a : ExecAnswer) (s : State) : State :=
  { s with
    regs := regWrites s.regs a.regWrites
    mem := memStores s.memSize s.mem a.stores
    execCount := s.execCount + 1 }

/-- `issue EXEC(v, pc0, raw, raw2)` and retire (R126, R127, R132): one request. A unit that does not answer leaves the
step unfinished, so the state stays as it is and the run never ends (R189, log entry 4). -/
def issue (unit : ExecUnit) (q : ExecRequest) (s : State) : State :=
  match unit (execInput q s) with
  | .answered a => retire q a.outcome (applyAnswer a s)
  | .noAnswer => s

/-- The arm of a tag that the execution unit is to run (R125): R132 if `IMPL` holds of it, R137 if not. -/
def external (unit : ExecUnit) (q : ExecRequest) (s : State) : State :=
  if implemented s.config q.value.tag then issue unit q s else raise (unimplemented q) s

end Sys2Proof.Machine
end

