-- ==== Sys2Proof/Machine/AddImm.lean ====
section
/-! DEFINITION. `AddImm` (R133), in its two forms. The arithmetic is the execution unit's (R4(d), R133). -/

namespace Sys2Proof.Machine

/-- The request a decoded instruction of the opcode table makes: its value and opcode as decoded, the `PC` of the step,
and no second halfword, since its tag has `LEN = 1` (R9, R133). -/
def instrRequest (i : Instr) (s : State) : ExecRequest :=
  { value := i.value, pc := s.regs.pc, raw := encode i, raw2 := none }

/-- `AddImm`, base `0x1C00` (R63, R133). -/
def execAddImm3 (rd rdn imm : BitVec 3) (s : State) : Host.Outcome State Fault Refusal :=
  .next (external Config.execUnit (instrRequest (.addImm3 rd rdn imm) s) s)

/-- `AddImm`, base `0x3000`, with the sentinel `rd = 0xFF` (R64, R133). -/
def execAddImm8 (rdn : BitVec 3) (imm : Byte) (s : State) : Host.Outcome State Fault Refusal :=
  .next (external Config.execUnit (instrRequest (.addImm8 rdn imm) s) s)

end Sys2Proof.Machine
end

