-- ==== Sys2Proof/Machine/Internal.lean ====
section
/-! DEFINITION. The tags the dispatcher executes itself: `Nop` (R131) and `Undefined` (R130). -/

namespace Sys2Proof.Machine

/-- `Nop` (R131): `PC <- pc0 + 2`; no request, whatever `IMPL(Nop)` is. -/
def execNop (s : State) : Host.Outcome State Fault Refusal :=
  .next (retire (instrRequest .nop s) .sequential s)

/-- `Undefined` (R130): `raise UndefinedOpcode`; `PC` stays, and `IMPL(Undefined)` is not consulted. -/
def execUndefined (raw : Opcode) (s : State) : Host.Outcome State Fault Refusal :=
  .next (raise (undefinedOpcode s.regs.pc raw) s)

end Sys2Proof.Machine
end

