-- ==== Sys2Proof/Machine/Tags.lean ====
section
/-! DEFINITION. Execute on a decoded value (R125): the exhaustive match on the tag, for every tag a catalog may hold. -/

namespace Sys2Proof.Machine

/-- The arm of tag `Undefined` (R130). -/
def tagUndefined (q : ExecRequest) (s : State) : State := raise (undefinedOpcode q.pc q.raw) s

/-- The arm of tag `Nop` (R131). -/
def tagNop (q : ExecRequest) (s : State) : State := retire q .sequential s

/-- The arm of tag `AddImm` (R133). -/
def tagAddImm (unit : ExecUnit) (q : ExecRequest) (s : State) : State := external unit q s

/-- The arm of tag `AddRegister` (R134). -/
def tagAddRegister (unit : ExecUnit) (q : ExecRequest) (s : State) : State := external unit q s

/-- The arm of tag `Branch` (R135): the unit answers `Jump` for a taken branch and `Sequential` for one not taken. -/
def tagBranch (unit : ExecUnit) (q : ExecRequest) (s : State) : State := external unit q s

/-- The arm of any other tag of the configuration (R132, R136, R137): system instructions, hints, barriers and
two-halfword forms are dispatched like any other tag (R50, R166, R172). -/
def tagOther (unit : ExecUnit) (q : ExecRequest) (s : State) : State := external unit q s

/-- Execute (R125), for any execution unit. -/
def executeTag (unit : ExecUnit) (q : ExecRequest) (s : State) : State :=
  match q.value.tag with
  | .undefined => tagUndefined q s
  | .nop => tagNop q s
  | .addImm => tagAddImm unit q s
  | .addRegister => tagAddRegister unit q s
  | .branch => tagBranch unit q s
  | .other _ => tagOther unit q s

end Sys2Proof.Machine
end

