-- ==== Sys2Proof/Machine/Dispatcher.lean ====
section
/-! DEFINITION. The dispatcher's step (R121): fetch, decode, the second halfword, and Execute, in the order of R160. -/

namespace Sys2Proof.Machine

/-- One dispatcher step (R121), with Execute as an argument. -/
def dispatcherStep (execute : ExecRequest → State → Host.Outcome State Fault Refusal) (s : State) :
    Host.Outcome State Fault Refusal :=
  let pc := s.regs.pc
  if pc[0] then .next (raise (misalignedFetch pc) s)
  else if !s.imageValid then .fault .noImage
  else
    match readHalfword s.mem s.memSize pc.toNat with
    | none => .next (raise (firstFetchOutOfBounds pc) s)
    | some raw =>
      match lookup s raw with
      | none => .refused .noTable
      | some v =>
        if lenOf s.config v.tag = 2 then
          match readHalfword s.mem s.memSize (pc.toNat + 2) with
          | none => .next (raise (secondFetchOutOfBounds pc raw v) s)
          | some raw2 => execute { value := v, pc, raw, raw2 := some raw2 } s
        else execute { value := v, pc, raw, raw2 := none } s

/-- Execute as the step of this block has it: an instruction of the opcode table runs by its meaning `run`, and a
decoded value that is none (one of another catalog) by the match on its tag (R125). -/
def executeDecoded (run : Instr → State → Host.Outcome State Fault Refusal) (q : ExecRequest) (s : State) :
    Host.Outcome State Fault Refusal :=
  match instrOfDecoded q.value q.raw with
  | some i => run i s
  | none => .next (executeTag Config.execUnit q s)

end Sys2Proof.Machine
end

