-- ==== Sys2Proof/Machine/HostPort.lean ====
section
/-! DEFINITION. The host's commands (70_reset_and_hazards.md) and DEBUG reads (41_lookup_mux.md), the transition of the
whole block for any execution unit, and the placing of one instruction where the next step fetches. -/

namespace Sys2Proof.Machine

/-- `initialize()` (R178): rebuild the table and the report wholesale. -/
def hostInitialise (s : State) : State :=
  { s with
    table := some (build s.config).1
    collisions := (build s.config).2
    phase := if s.phase = .uninitialized ∧ s.imageValid = true then .loaded else s.phase }

/-- `load(entry, memory)` (R180), once admitted. -/
def hostLoad (entry : Word) (image : List Byte) (s : State) : State :=
  { s with
    mem := memOfBytes 0 image
    memSize := image.length
    imageValid := true
    regs := { s.regs with pc := entry }
    result := none
    phase := if s.table.isSome then .loaded else .uninitialized }

/-- The start of `run()` (R181): its steps are the transitions that follow (R170). -/
def hostRun (s : State) : State := { s with phase := .running }

/-- What a DEBUG read returns to the host. It changes nothing else (R114). -/
def hostReply (r : List (Opcode × InstrValue)) (s : State) : State := { s with debugReply := some r }

/-- Whether a phase admits a host command (R177). DEBUG needs a table as well (R118). -/
def admitted (p : Phase) : HostCommand → Bool
  | .initialise => p != .running
  | .load _ _ => p != .running
  | .run => p == .loaded
  | .debugRead _ => p != .running
  | .dump => p != .running

/-- Perform a host command (R176 to R182), or refuse it. -/
def hostCommand (c : HostCommand) (s : State) : Host.Outcome State Fault Refusal :=
  if !admitted s.phase c then .refused (.commandNotAdmitted s.phase)
  else
    match c with
    | .initialise => .next (hostInitialise s)
    | .load entry image =>
      if image.length > 2 ^ 32 - 1 then .refused .imageTooLarge
      else if entry ≥ 2 ^ 32 then .refused .entryTooWide
      else .next (hostLoad (BitVec.ofNat 32 entry) image s)
    | .run => .next (hostRun s)
    | .debugRead i =>
      match s.table with
      | none => .refused .noTable
      | some T => .next (hostReply [debugEntry T i] s)
    | .dump =>
      match s.table with
      | none => .refused .noTable
      | some T => .next (hostReply (dumpTable T) s)

/-- The transition of a block that is not running: the host's next command, or rest while it has issued none (log
entry 7). -/
def hostStep (s : State) : Host.Outcome State Fault Refusal :=
  match s.hostQueue with
  | [] => .next s
  | c :: rest => hostCommand c { s with hostQueue := rest }

/-- One transition of the block (R16), with Execute as an argument: the dispatcher's step during a run, when the host
has no move (R176), and the host's next command otherwise. -/
def blockStep (execute : ExecRequest → State → Host.Outcome State Fault Refusal) (s : State) :
    Host.Outcome State Fault Refusal :=
  match s.phase with
  | .running => dispatcherStep execute s
  | .uninitialized => hostStep s
  | .loaded => hostStep s
  | .terminated => hostStep s

/-- One transition of the block with a given execution unit (R11), Execute being R125's match on the tag. -/
def stepWith (unit : ExecUnit) (s : State) : Host.Outcome State Fault Refusal :=
  blockStep (fun q s => .next (executeTag unit q s)) s

/-- The state with an instruction placed where the next step fetches. In a run whose `PC` can be fetched from, its bytes
are stored there. Otherwise this stands for `initialize`, `load` with entry 0 of an image that is the instruction, and
`run` (R183, log entry 9); a table that is missing is the priority decoder's, which is the built one (R115). -/
def placeInstruction (s : State) (nbits w : Nat) : State :=
  let bytes := tableWordBytes nbits w
  let pc := s.regs.pc.toNat
  if s.phase = .running ∧ s.table.isSome = true ∧ s.imageValid = true ∧ pc % 2 = 0 ∧ pc + 2 ≤ s.memSize then
    { s with mem := memStores s.memSize s.mem (([pc, pc + 1, pc + 2, pc + 3] : List Nat).zip bytes) }
  else
    { s with
      phase := .running
      table := some (s.table.getD (priorityTable s.config))
      collisions := if s.table.isSome then s.collisions else collisionReport s.config
      imageValid := true
      memSize := bytes.length
      mem := memOfBytes 0 bytes
      regs := { s.regs with pc := 0 }
      result := none }

end Sys2Proof.Machine
end

