-- ==== Sys2Proof/Machine/Dispatch.lean ====
section
/-! DEFINITION. The meanings of the instructions of spec/opcode_table.json, one arm per constructor (R125). -/

namespace Sys2Proof.Machine

-- R63, R64 and R133; R65 and R131; R69 and R130.
def exec (i : Instr) (s : State) : Host.Outcome State Fault Refusal :=
  match i with
  | .addImm3 rd rdn imm => Sys2Proof.Machine.execAddImm3 rd rdn imm s
  | .addImm8 rdn imm => Sys2Proof.Machine.execAddImm8 rdn imm s
  | .nop => Sys2Proof.Machine.execNop s
  | .undefined raw => Sys2Proof.Machine.execUndefined raw s

end Sys2Proof.Machine
end

