-- ==== Sys2Proof/Machine/Step.lean ====
section
/-! DEFINITION. The transition of the machine. -/

namespace Sys2Proof.Machine

/-- One transition of the block (R16): a dispatcher step during a run (R121), the host's next command otherwise. -/
def step (s : State) : Host.Outcome State Fault Refusal := blockStep (executeDecoded exec) s

/-- The state with an instruction placed where `step` fetches next, its bits numbered as spec/opcode_table.json numbers
them (log entry 9). -/
def State.withFetchWord (s : State) (nbits w : Nat) : State := placeInstruction s nbits w

end Sys2Proof.Machine
end

