-- ==== Sys2Proof/Safety.lean ====
section
/-! DEFINITION. What claims are stated in: the invariant of the block's state, and what a run's end is. -/

namespace Sys2Proof.Machine

/-- The invariant: what the spec says of every state of the block, and the canonical form of its data. -/
structure State.Inv (s : State) : Prop where
  /-- The configuration passes the checks at the boundary (R84). -/
  configOk : s.config.wellFormed = true
  /-- The bytes of the image are in canonical form. -/
  memOk : memWf s.mem = true
  /-- Only bytes of the image are listed (R40). -/
  memInImage : s.imageValid = true → ∀ c ∈ s.mem, c.1 < s.memSize
  /-- The image is at most `2^32 - 1` bytes (R10). -/
  sizeOk : s.imageValid = true → s.memSize ≤ 2 ^ 32 - 1
  /-- The table, where there is one, is the one built from the catalog, and so is the report (R21, R101, R187). -/
  tableBuilt : ∀ T, s.table = some T → (T, s.collisions) = build s.config
  /-- Before the first build there is no report (R35). -/
  noReport : s.table = none → s.collisions = []
  /-- Outside `Uninitialized`, a table is built and an image is loaded (R26). -/
  ready : s.phase ≠ .uninitialized → s.table.isSome = true ∧ s.imageValid = true
  /-- In `Uninitialized`, one of the two is missing (R26). -/
  notReady : s.phase = .uninitialized → s.table = none ∨ s.imageValid = false
  /-- A result is held exactly in `Terminated` (R28). -/
  resultIff : s.result.isSome = true ↔ s.phase = .terminated

/-- What no dispatcher step changes (R25, R176). -/
structure SameControl (s t : State) : Prop where
  config : t.config = s.config
  table : t.table = s.table
  collisions : t.collisions = s.collisions
  imageValid : t.imageValid = s.imageValid
  memSize : t.memSize = s.memSize
  hostQueue : t.hostQueue = s.hostQueue
  debugReply : t.debugReply = s.debugReply

/-- A running step gets past its first fetch and decodes `v` from `raw` (R121 to R123). -/
structure Fetched (s : State) (raw : Opcode) (v : InstrValue) : Prop where
  running : s.phase = .running
  even : s.regs.pc.toNat % 2 = 0
  image : s.imageValid = true
  inside : s.regs.pc.toNat + 2 ≤ s.memSize
  halfword : raw = halfwordLE (memRead s.mem s.regs.pc.toNat) (memRead s.mem (s.regs.pc.toNat + 1))
  decoded : lookup s raw = some v

/-- The second halfword of a step that decoded `v` (R124): none for a tag of one halfword, and for a tag of two the
halfword at `pc0 + 2`, which lies inside the image. -/
def SecondFetched (s : State) (v : InstrValue) (raw2 : Option Opcode) : Prop :=
  lenOf s.config v.tag = 1 ∧ raw2 = none ∨
  lenOf s.config v.tag = 2 ∧ s.regs.pc.toNat + 4 ≤ s.memSize ∧
    raw2 = some (halfwordLE (memRead s.mem (s.regs.pc.toNat + 2)) (memRead s.mem (s.regs.pc.toNat + 3)))

/-- The byte that an image with bytes `m` holds at an address inside it once stores are made, the first of the list
first: the last one to that address, or the byte of `m` where there is none. -/
def ByteAfterStores (m : Memory) (stores : List (Nat × Byte)) (addr : Nat) (b : Byte) : Prop :=
  (∃ before after, stores = before ++ (addr, b) :: after ∧ ∀ p ∈ after, p.1 ≠ addr) ∨
  (∀ p ∈ stores, p.1 ≠ addr) ∧ memRead m addr = b

/-- Whether a state is the end of a run that did not end fatally (R151). -/
def State.endedCleanly (s : State) : Bool :=
  match s.result with
  | some r => !kindFatal r.kind
  | none => false

end Sys2Proof.Machine
end

