-- ==== Sys2Proof/Certificates/Slice0/Obligations.lean ====
section
/-! DEFINITION. The statements for the provers. Each docstring names the rules of spec/ it formalises. -/

open Sys2Proof Sys2Proof.Machine

/-! ## Encoding -/

/-- Words written out from the encoding diagrams of R63, R64 and R65 and the vectors of L2-M1 decode to what they stand
for; `0x0001` is `Undefined` (R70). -/
def Obligations.SpecWordsDecode : Prop :=
  decodeTableWord 16 0b0001110011010101 = some (.addImm3 5 2 3) ∧
  decodeTableWord 16 0b0001110001000000 = some (.addImm3 0 0 1) ∧
  decodeTableWord 16 0b0011000000010010 = some (.addImm8 0 0x12) ∧
  decodeTableWord 16 0b0011000100000000 = some (.addImm8 1 0) ∧
  decodeTableWord 16 0b1011111100000000 = some .nop ∧
  decodeTableWord 16 0b0000000000000001 = some (.undefined 0x0001) ∧
  decodeTableWord 16 0b0001111000000000 = some (.undefined 0x1E00)

/-- Decoding the encoding of a well-formed instruction gives it back, with every operand at every value (R63 to R67). -/
def Obligations.DecodeOfEncode : Prop :=
  ∀ i : Instr, i.wellFormed = true → decode (encode i) = i

/-- Every halfword decodes to a well-formed instruction whose encoding is that halfword (R56, R67, R69, R112). -/
def Obligations.EncodeOfDecode : Prop :=
  ∀ x : Opcode, (decode x).wellFormed = true ∧ encode (decode x) = x

/-- A fetch reads both bytes or neither, the byte at the lower address in bits 7 to 0 (R42, R43, R44). -/
def Obligations.FetchIsLittleEndianAndBounded : Prop :=
  ∀ (m : Memory) (size a : Nat),
    (readHalfword m size a = none ↔ size < a + 2) ∧
    ∀ raw, readHalfword m size a = some raw ↔
      a + 2 ≤ size ∧ raw.extractLsb' 0 8 = memRead m a ∧ raw.extractLsb' 8 8 = memRead m (a + 1)

/-! ## The generator -/

/-- R94: the last write to an index in the order of R93 decides its entry, and an index that nothing writes holds
`Undefined`. -/
def Obligations.LastWriteWins : Prop :=
  ∀ (cfg : Configuration) (x : Opcode),
    (∀ before w after, tableWrites cfg = before ++ w :: after → w.1 = x → (∀ u ∈ after, u.1 ≠ x) →
      tableGet (buildTable cfg) x = w.2) ∧
    ((∀ w ∈ tableWrites cfg, w.1 ≠ x) → tableGet (buildTable cfg) x = { tag := .undefined, fields := [] })

/-- R106, R86: a build makes `Σ_e Π_i |Range(op_i)|` writes, a defaulted operand counting once, and 2561 under `C0`. -/
def Obligations.BuildWriteCount : Prop :=
  (∀ cfg : Configuration, (tableWrites cfg).length =
    ((encodingsOf cfg.catalog).map fun e =>
      (e.operands.map fun op => if op.forced.isSome then 1 else 2 ^ op.width).prod).sum) ∧
  (tableWrites Config.reference).length = 512 + 2048 + 1

/-- R96: for an encoding that passes WF4 to WF8, (a) distinct combinations have distinct opcodes, (b) their opcodes are
the match set, (c) the combination of an opcode is its extraction; and (d) two such encodings with disjoint match sets
can be applied in either order. -/
def Obligations.MatchSetOfEncoding : Prop :=
  ∀ e : EncodingSpec, widthRange e = true → fieldFits e = true → inRange e = true →
    noOverlapOperands e = true → noOverlapBase e = true →
    (∀ c ∈ combos e.operands, ∀ c' ∈ combos e.operands, comboIndex e c = comboIndex e c' → c = c') ∧
    (∀ x : Opcode, (∃ c ∈ combos e.operands, comboIndex e c = x) ↔ x &&& fixedMask e = e.base) ∧
    (∀ c ∈ combos e.operands, unpackCombo e (comboIndex e c) = c) ∧
    ∀ e' : EncodingSpec, widthRange e' = true → fieldFits e' = true → inRange e' = true →
      noOverlapOperands e' = true → noOverlapBase e' = true →
      (∀ x : Opcode, ¬ (x &&& fixedMask e = e.base ∧ x &&& fixedMask e' = e'.base)) →
      ∀ (cfg : Configuration) (T : DecodeTable) (x : Opcode),
        tableGet (applyWrites T (encodingWrites cfg e ++ encodingWrites cfg e')) x =
        tableGet (applyWrites T (encodingWrites cfg e' ++ encodingWrites cfg e)) x

/-- R95: at the index of a combination that no later write reaches, the table holds the encoding's tag; the field of an
operand without a default holds the combination's value, that of a defaulted operand its default, every other field 0. -/
def Obligations.RoundTripThroughTable : Prop :=
  ∀ (cfg : Configuration) (entryTag : Tag) (e : EncodingSpec) (c : List (Option Nat)) (before after : List TableWrite),
    encodingOk cfg entryTag e = true → c ∈ combos e.operands →
    tableWrites cfg = before ++ (comboIndex e c, comboValue cfg e c) :: after →
    (∀ u ∈ after, u.1 ≠ comboIndex e c) →
    let v := tableGet (buildTable cfg) (comboIndex e c)
    v.tag = e.tag ∧
    (∀ op ci, (op, ci) ∈ e.operands.zip c →
      match op.forced with
      | some d => fieldOf v op.name = some d
      | none => ∃ n b, ci = some n ∧ n < 2 ^ op.width ∧ fieldOf v op.name = some b ∧ b.toNat = n) ∧
    ∀ f ∈ fieldsOf cfg e.tag, (∀ op ∈ e.operands, op.name ≠ f) → fieldOf v f = some 0

/-- R115: for a well-formed configuration, the entry of an opcode is the value that the last encoding in catalog order
whose match set holds it extracts, and `Undefined` where there is none; the built table is the priority decoder's. -/
def Obligations.TableIsPriorityDecoder : Prop :=
  ∀ cfg : Configuration, cfg.wellFormed = true →
    buildTable cfg = priorityTable cfg ∧
    ∀ x : Opcode,
      (∀ before e after, encodingsOf cfg.catalog = before ++ e :: after → x &&& fixedMask e = e.base →
        (∀ e' ∈ after, x &&& fixedMask e' ≠ e'.base) →
        tableGet (buildTable cfg) x = comboValue cfg e (unpackCombo e x)) ∧
      ((∀ e ∈ encodingsOf cfg.catalog, x &&& fixedMask e ≠ e.base) →
        tableGet (buildTable cfg) x = { tag := .undefined, fields := [] })

/-- R67: the opcode map of `C0`, over all 65,536 opcodes. -/
def Obligations.ReferenceOpcodeMap : Prop :=
  ∀ x : Opcode, tableGet (buildTable Config.reference) x =
    if 0x1C00 ≤ x.toNat ∧ x.toNat ≤ 0x1DFF then
      { tag := .addImm
        fields := [(.rd, (x.extractLsb' 0 3).setWidth 8), (.rdn, (x.extractLsb' 3 3).setWidth 8),
          (.imm, (x.extractLsb' 6 3).setWidth 8)] }
    else if 0x3000 ≤ x.toNat ∧ x.toNat ≤ 0x37FF then
      { tag := .addImm
        fields := [(.rd, 0xFF), (.rdn, (x.extractLsb' 8 3).setWidth 8), (.imm, x.extractLsb' 0 8)] }
    else if x.toNat = 0xBF00 then { tag := .nop, fields := [] }
    else { tag := .undefined, fields := [] }

/-- The table that the generator builds from `C0` and the decoder of spec/opcode_table.json give every opcode the same
value (R66, R67, R115). -/
def Obligations.ReferenceTableIsOpcodeTable : Prop :=
  ∀ x : Opcode, tableGet (buildTable Config.reference) x = (decode x).value

/-- R88: a defaulted operand packs nothing. Its encoding writes the indices that the encoding without it writes, in the
same order, so neither its default nor its width nor its shift is part of an index; and its width and shift change no
write at all. -/
def Obligations.DefaultedOperandPacksNothing : Prop :=
  ∀ (cfg : Configuration) (t : Tag) (base : Opcode) (before after : List OperandSpec) (op : OperandSpec) (w k : Nat),
    op.forced.isSome = true →
    (∀ c : Option Nat, packOperand op c = 0) ∧
    (encodingWrites cfg { tag := t, base, operands := before ++ op :: after }).map (·.1) =
      (encodingWrites cfg { tag := t, base, operands := before ++ after }).map (·.1) ∧
    encodingWrites cfg { tag := t, base, operands := before ++ { op with width := w, shift := k } :: after } =
      encodingWrites cfg { tag := t, base, operands := before ++ op :: after }

/-- R105: an `Undefined` encoding without operands at the end of a catalog withdraws its one opcode and no other. -/
def Obligations.UndefinedEntryWithdrawsOpcode : Prop :=
  ∀ (cfg : Configuration) (b : Opcode),
    buildTable { cfg with catalog := cfg.catalog ++ [(.undefined, [{ tag := .undefined, base := b, operands := [] }])] }
      = tableSet (buildTable cfg) b { tag := .undefined, fields := [] }

/-- R100: with `COLLISION_REPORT = on` the report lists, in write order, one line for each write over a value of another
tag that is not `Undefined`; with it off the report is empty; the table is the same either way; and no step of a run
depends on the report. -/
def Obligations.CollisionReportListsOverwrites : Prop :=
  (∀ cfg : Configuration,
    (build { cfg with collisionReport := false }).2 = [] ∧
    (build { cfg with collisionReport := true }).2 =
      (List.range (tableWrites cfg).length).filterMap (fun k =>
        (tableWrites cfg)[k]?.bind fun w =>
          let old := (tableGet (applyWrites emptyTable ((tableWrites cfg).take k)) w.1).tag
          if old ≠ .undefined ∧ old ≠ w.2.tag then some (w.1, old, w.2.tag) else none) ∧
    ∀ b : Bool, (build { cfg with collisionReport := b }).1 = (build cfg).1) ∧
  ∀ (unit : ExecUnit) (s t : State) (report : List Collision), s.phase = .running → stepWith unit s = .next t →
    stepWith unit { s with collisions := report } = .next { t with collisions := report }

/-- R103: under `C0`, a decoded `AddImm` came from the `0x3000` encoding exactly when its `rd` is `0xFF`. -/
def Obligations.ForcedDefaultSelectsForm : Prop :=
  ∀ x : Opcode, (tableGet (buildTable Config.reference) x).tag = .addImm →
    (fieldOf (tableGet (buildTable Config.reference) x) .rd = some 0xFF ↔ x &&& 0xF800 = 0x3000)

/-- R21, R98: a built table has exactly 65,536 entries, and two built tables that agree at every opcode are the same. -/
def Obligations.BuiltTableIsFull : Prop :=
  ∀ cfg : Configuration, tableFull (buildTable cfg) = true ∧
    ∀ cfg' : Configuration, (∀ x, tableGet (buildTable cfg) x = tableGet (buildTable cfg') x) →
      buildTable cfg = buildTable cfg'

/-- R84: a configuration is admitted only if every encoding of every entry passes WF1 to WF8, and one of which an
encoding fails a check is refused, with that check, entry and encoding among the reasons. -/
def Obligations.IllFormedCatalogRefused : Prop :=
  ∀ cfg : Configuration,
    (∀ c, cfg.accept = .ok c → c.1 = cfg ∧
      ∀ entry ∈ cfg.catalog, ∀ e ∈ entry.2, ∀ k : CatalogCheck, k.passes cfg entry.1 e = true) ∧
    ∀ (i j : Nat) (entry : Tag × List EncodingSpec) (e : EncodingSpec) (k : CatalogCheck),
      cfg.catalog[i]? = some entry → entry.2[j]? = some e → k.passes cfg entry.1 e = false →
      (∃ r, cfg.accept = .error r) ∧ ∃ k', k'.passes cfg entry.1 e = false ∧ ConfigRefusal.catalog k' i j ∈ cfg.refusals

/-- R62: for a well-formed configuration, two values of its tags have equal bus words only if they are equal. -/
def Obligations.BusWordIsInjective : Prop :=
  ∀ (cfg : Configuration) (v v' : InstrValue) (w : Nat), cfg.wellFormed = true →
    v.fields.map (·.1) = fieldsOf cfg v.tag → v'.fields.map (·.1) = fieldsOf cfg v'.tag →
    busWord cfg v = some w → busWord cfg v' = some w → v = v'

/-- The bus words of L2-M2 and the storage width of R119, under `C0`. -/
def Obligations.ReferenceBusWords : Prop :=
  busWidth Config.reference = 26 ∧
  busWord Config.reference (Instr.undefined 0).value = some 0x0000000 ∧
  busWord Config.reference Instr.nop.value = some 0x0000002 ∧
  busWord Config.reference (Instr.addImm3 5 2 3).value = some 0x00C0815 ∧
  busWord Config.reference (Instr.addImm3 7 7 7).value = some 0x01C1C1D ∧
  busWord Config.reference (Instr.addImm8 0 0x12).value = some 0x04803FD ∧
  busWord Config.reference (Instr.addImm8 7 0xFF).value = some 0x3FC1FFD

/-! ## LOOKUP and DEBUG -/

/-- R113: `Dump()` has 65,536 pairs in ascending opcode order, the pair of opcode `i` being `(i, T[i])`. -/
def Obligations.DumpListsEveryEntry : Prop :=
  ∀ T : DecodeTable, (dumpTable T).length = 65536 ∧
    ∀ i : Opcode, (dumpTable T)[i.toNat]? = some (i, tableGet T i)

/-- R113, R114: outside a run, with a table built, a DEBUG read answers from the table and changes nothing else. -/
def Obligations.DebugReadsOnly : Prop :=
  ∀ (s : State) (T : DecodeTable) (i : Opcode), s.phase ≠ .running → s.table = some T →
    hostCommand (.debugRead i) s = .next { s with debugReply := some [(i, tableGet T i)] } ∧
    hostCommand .dump s = .next { s with debugReply := some (dumpTable T) }

/-- R118: while no table is built, LOOKUP and DEBUG are refused. -/
def Obligations.NoTableNoLookup : Prop :=
  ∀ (s : State) (i : Opcode), s.table = none →
    lookup s i = none ∧
    (s.phase ≠ .running → hostCommand (.debugRead i) s = .refused .noTable ∧ hostCommand .dump s = .refused .noTable) ∧
    (s.phase = .running → s.regs.pc.toNat % 2 = 0 → s.imageValid = true → s.regs.pc.toNat + 2 ≤ s.memSize →
      step s = .refused .noTable)

/-! ## Fetch -/

/-- R156, R45: a step at an odd `PC` ends the run with `MisalignedFetch`, whatever the image is. -/
def Obligations.MisalignedFetchEndsRun : Prop :=
  ∀ s : State, s.phase = .running → s.regs.pc.toNat % 2 = 1 →
    step s = .next { s with
      phase := .terminated
      result := some { kind := .misalignedFetch, pc := s.regs.pc, addr := some s.regs.pc, raw := none, value := none,
                       code := none } }

/-- R153, R124, R160: a first halfword outside the image ends the run with `FetchOutOfBounds` at `pc0`; a second one
ends it with `FetchOutOfBounds` at `pc0 + 2`, before Execute and whether or not the tag is implemented. -/
def Obligations.FetchOutOfBoundsEndsRun : Prop :=
  (∀ s : State, s.phase = .running → s.regs.pc.toNat % 2 = 0 → s.imageValid = true →
    s.memSize < s.regs.pc.toNat + 2 →
    step s = .next { s with
      phase := .terminated
      result := some { kind := .fetchOutOfBounds, pc := s.regs.pc, addr := some s.regs.pc, raw := none, value := none,
                       code := none } }) ∧
  ∀ (s : State) (raw : Opcode) (v : InstrValue), Fetched s raw v → lenOf s.config v.tag = 2 →
    s.memSize < s.regs.pc.toNat + 4 →
    step s = .next { s with
      phase := .terminated
      result := some { kind := .fetchOutOfBounds, pc := s.regs.pc, addr := some (s.regs.pc + 2), raw := some raw,
                       value := some v, code := none } }

/-! ## The step and the instructions -/

/-- When the halfword at `PC` decodes to an instruction and the block's table has that instruction's value there, the
step is that instruction's meaning, and nothing is added around it (R121, R125). -/
def Obligations.StepRunsDecodedInstruction : Prop :=
  ∀ (s : State) (raw : Opcode) (i : Instr), i.wellFormed = true → decode raw = i → Fetched s raw i.value →
    step s = exec i s

/-- A block with the reference configuration runs, from every running state that keeps the invariant, the instruction
that the opcode table gives for the halfword at `PC` (R67, R121, R140). -/
def Obligations.ReferenceBlockRunsOpcodeTable : Prop :=
  ∀ s : State, s.Inv → s.phase = .running → s.config = Config.reference → s.regs.pc.toNat % 2 = 0 →
    s.regs.pc.toNat + 2 ≤ s.memSize →
    step s = exec (decode (halfwordLE (memRead s.mem s.regs.pc.toNat) (memRead s.mem (s.regs.pc.toNat + 1)))) s

/-- In every state and under every catalog, the step of this block is the dispatcher of R121 with the match on the tag
of R125 and this block's execution unit. -/
def Obligations.StepIsTagDispatch : Prop :=
  ∀ s : State, step s = stepWith Config.execUnit s

/-- R130, R152: `Undefined` ends the run with `UndefinedOpcode`, in every state, and changes nothing else: no register,
no byte of memory, no request, and `PC` stays. -/
def Obligations.UndefinedRaisesUndefinedOpcode : Prop :=
  ∀ (raw : Opcode) (s : State), exec (.undefined raw) s = .next { s with
    phase := .terminated
    result := some { kind := .undefinedOpcode, pc := s.regs.pc, addr := none, raw := some raw, value := none,
                     code := none } }

/-- R131: `Nop` adds 2 to `PC`, in every state and whatever `IMPL` says, and changes nothing else: no other register, no
byte of memory, no request, no result. -/
def Obligations.NopAdvancesPc : Prop :=
  ∀ s : State, exec .nop s = .next { s with regs := { s.regs with pc := s.regs.pc + 2 } }

/-- R133, R132, R127: where `IMPL(AddImm)` holds, each form of `AddImm` completes. It asks the execution unit once, with
the value and opcode as decoded, the `PC` and no second halfword, applies the register and memory effects of the answer,
and retires by its outcome. A unit that does not answer leaves the step unfinished (R189), which the model renders as a
state that stays as it is (log entry 4); the effects are applied in the order of the answer's lists (log entry 1). -/
def Obligations.AddImmIssuesAndRetires : Prop :=
  ∀ (rd rdn imm : BitVec 3) (imm8 : Byte) (s : State), implemented s.config .addImm = true →
    ∀ (i : Instr) (v : InstrValue),
      (i = .addImm3 rd rdn imm ∧ v = { tag := .addImm, fields :=
          [(.rd, rd.setWidth 8), (.rdn, rdn.setWidth 8), (.imm, imm.setWidth 8)] } ∨
       i = .addImm8 rdn imm8 ∧ v = { tag := .addImm, fields := [(.rd, 0xFF), (.rdn, rdn.setWidth 8), (.imm, imm8)] }) →
      ∃ t, exec i s = .next t ∧
        match Config.execUnit { request := { value := v, pc := s.regs.pc, raw := encode i, raw2 := none }
                                regs := s.regs, mem := s.mem, memSize := s.memSize, serial := s.execCount } with
        | .noAnswer => t = s
        | .answered a =>
          let u : State := { s with
            regs := regWrites s.regs a.regWrites
            mem := memStores s.memSize s.mem a.stores
            execCount := s.execCount + 1 }
          let r : TerminalResult :=
            { kind := .halted, pc := s.regs.pc, addr := none, raw := some (encode i), value := some v, code := none }
          match a.outcome with
          | .sequential => t = { u with regs := { u.regs with pc := s.regs.pc + 2 } }
          | .jump target => t = { u with regs := { u.regs with pc := target } }
          | .halt => t = { u with phase := .terminated, result := some r }
          | .error code => t = { u with
              phase := .terminated, result := some { r with kind := .execError, code := some code } }
          | .dataOutOfBounds a => t = { u with
              phase := .terminated, result := some { r with kind := .dataOutOfBounds, addr := some a } }

/-- R133, R137, R154: where `IMPL(AddImm)` does not hold, each form of `AddImm` ends the run with `Unimplemented`,
carrying the decoded value, and changes nothing else. -/
def Obligations.AddImmUnimplemented : Prop :=
  ∀ (rd rdn imm : BitVec 3) (imm8 : Byte) (s : State), implemented s.config .addImm = false →
    ∀ i : Instr, i = .addImm3 rd rdn imm ∨ i = .addImm8 rdn imm8 →
      exec i s = .next { s with
        phase := .terminated
        result := some { kind := .unimplemented, pc := s.regs.pc, addr := none, raw := some (encode i),
                         value := some i.value, code := none } }

/-- The frame of `AddImm`, in both forms, for a memory in canonical form: the block's control state is unchanged; a
register is unchanged unless the answer names it; a byte of memory is unchanged unless the answer stores to it inside
the image; and `PC` stays, advances by 2 or takes the answer's target. Three points are the model's choice: that a
stack-pointer alias is unchanged when the answer names only the other one (log entry 5), that a store outside the image
changes nothing (log entry 1), and that a request which is never answered leaves every register and byte as it was (log
entry 4). -/
def Obligations.AddImmFrame : Prop :=
  ∀ (rd rdn imm : BitVec 3) (imm8 : Byte) (s t : State) (i : Instr),
    i = .addImm3 rd rdn imm ∨ i = .addImm8 rdn imm8 → memWf s.mem = true → exec i s = .next t →
    let reply := Config.execUnit
      { request := { value := i.value, pc := s.regs.pc, raw := encode i, raw2 := none }
        regs := s.regs, mem := s.mem, memSize := s.memSize, serial := s.execCount }
    SameControl s t ∧
    (∀ id, (∀ a, reply = .answered a → ∀ p ∈ a.regWrites, p.1 ≠ id) → regRead t.regs id = regRead s.regs id) ∧
    (∀ addr, (addr < s.memSize → ∀ a, reply = .answered a → ∀ p ∈ a.stores, p.1 ≠ addr) →
      memRead t.mem addr = memRead s.mem addr) ∧
    (t.regs.pc = s.regs.pc ∨ t.regs.pc = s.regs.pc + 2 ∨
      ∃ a target, reply = .answered a ∧ a.outcome = .jump target ∧ t.regs.pc = target)

/-- R126: the register effects an execution unit reports never write the program counter; a register of the file holds
the last value that they write to it, and one they do not name is unchanged. Two points are the model's choice: that the
effects happen in the order of the answer's list (log entry 1), and that a write of one stack-pointer alias leaves the
other alone (log entry 5). -/
def Obligations.AnswerWritesOnlyNamedRegisters : Prop :=
  ∀ (a : ExecAnswer) (s : State) (id : RegId),
    (applyAnswer a s).regs.pc = s.regs.pc ∧
    (∀ before w after, a.regWrites = before ++ (id, w) :: after → (∀ p ∈ after, p.1 ≠ id) →
      (regRead s.regs id).isSome = true → regRead (applyAnswer a s).regs id = some w) ∧
    ((∀ p ∈ a.regWrites, p.1 ≠ id) → regRead (applyAnswer a s).regs id = regRead s.regs id)

/-- R132, R134 to R136, R155, R157: for every execution unit, a step that decodes a tag other than `Undefined` and `Nop`
that is implemented issues one request and, once answered, applies the effects, in the order of the answer's lists (the
model's choice, log entry 1), and retires by the outcome. -/
def Obligations.ImplementedTagStep : Prop :=
  ∀ (unit : ExecUnit) (s : State) (raw : Opcode) (v : InstrValue) (raw2 : Option Opcode) (a : ExecAnswer),
    Fetched s raw v → SecondFetched s v raw2 → v.tag ≠ .undefined → v.tag ≠ .nop →
    implemented s.config v.tag = true →
    unit { request := { value := v, pc := s.regs.pc, raw, raw2 }, regs := s.regs, mem := s.mem, memSize := s.memSize,
           serial := s.execCount } = .answered a →
    let u : State := { s with
      regs := regWrites s.regs a.regWrites
      mem := memStores s.memSize s.mem a.stores
      execCount := s.execCount + 1 }
    let r : TerminalResult :=
      { kind := .halted, pc := s.regs.pc, addr := none, raw := some raw, value := some v, code := none }
    stepWith unit s = .next (match a.outcome with
      | .sequential => { u with regs := { u.regs with
          pc := s.regs.pc + BitVec.ofNat 32 (2 * lenOf s.config v.tag) } }
      | .jump target => { u with regs := { u.regs with pc := target } }
      | .halt => { u with phase := .terminated, result := some r }
      | .error code => { u with
          phase := .terminated, result := some { r with kind := .execError, code := some code } }
      | .dataOutOfBounds addr => { u with
          phase := .terminated, result := some { r with kind := .dataOutOfBounds, addr := some addr } })

/-- R136: a two-halfword instruction that the execution unit answers with `Sequential` consumes 4 bytes, its second
halfword having been sent to the unit as it was fetched. -/
def Obligations.TwoHalfwordStepConsumesFour : Prop :=
  ∀ (unit : ExecUnit) (s : State) (raw raw2 : Opcode) (v : InstrValue) (a : ExecAnswer),
    Fetched s raw v → SecondFetched s v (some raw2) → implemented s.config v.tag = true →
    unit { request := { value := v, pc := s.regs.pc, raw, raw2 := some raw2 }, regs := s.regs, mem := s.mem,
           memSize := s.memSize, serial := s.execCount } = .answered a →
    a.outcome = .sequential →
    ∃ t, stepWith unit s = .next t ∧ t.phase = .running ∧ t.regs.pc = s.regs.pc + 4 ∧
      raw2 = halfwordLE (memRead s.mem (s.regs.pc.toNat + 2)) (memRead s.mem (s.regs.pc.toNat + 3))

/-- R137, R154: for every execution unit, a step that decodes a tag other than `Undefined` and `Nop` that is not
implemented ends the run with `Unimplemented`, once its halfwords are fetched, and changes nothing else. -/
def Obligations.UnimplementedTagStep : Prop :=
  ∀ (unit : ExecUnit) (s : State) (raw : Opcode) (v : InstrValue) (raw2 : Option Opcode),
    Fetched s raw v → SecondFetched s v raw2 → v.tag ≠ .undefined → v.tag ≠ .nop →
    implemented s.config v.tag = false →
    stepWith unit s = .next { s with
      phase := .terminated
      result := some { kind := .unimplemented, pc := s.regs.pc, addr := none, raw := some raw, value := some v,
                       code := none } }

/-- R152, R130: under every catalog and for every execution unit, a step whose first halfword decodes to `Undefined` ends
the run with `UndefinedOpcode`, carrying the halfword, and changes nothing else. -/
def Obligations.UndefinedStep : Prop :=
  ∀ (unit : ExecUnit) (s : State) (raw : Opcode) (v : InstrValue), Fetched s raw v → v.tag = .undefined →
    stepWith unit s = .next { s with
      phase := .terminated
      result := some { kind := .undefinedOpcode, pc := s.regs.pc, addr := none, raw := some raw, value := none,
                       code := none } }

/-- R131: under every catalog, for every execution unit and whatever `IMPL` says, a step that decodes `Nop` adds 2 to
`PC` and changes nothing else. -/
def Obligations.NopStep : Prop :=
  ∀ (unit : ExecUnit) (s : State) (raw : Opcode) (v : InstrValue), Fetched s raw v → v.tag = .nop →
    stepWith unit s = .next { s with regs := { s.regs with pc := s.regs.pc + 2 } }

/-- R141, R131: a `Nop` that is the last halfword of an image leaves `PC = MEM_SIZE`, and the next step ends the run with
`FetchOutOfBounds` there. -/
def Obligations.NopAtEndThenFetchOutOfBounds : Prop :=
  ∀ (s : State) (raw : Opcode) (v : InstrValue), s.Inv → Fetched s raw v → v.tag = .nop →
    s.regs.pc.toNat + 2 = s.memSize →
    ∃ t, step s = .next t ∧ t.regs.pc.toNat = s.memSize ∧ t.phase = .running ∧
      step t = .next { t with
        phase := .terminated
        result := some { kind := .fetchOutOfBounds, pc := t.regs.pc, addr := some t.regs.pc, raw := none, value := none,
                         code := none } }

/-- R189: an execution unit that never answers a request leaves the step unfinished, so the run never ends. The model
renders the hang as a state that stays as it is (log entry 4). -/
def Obligations.UnansweredRequestHangs : Prop :=
  ∀ (unit : ExecUnit) (s : State) (raw : Opcode) (v : InstrValue) (raw2 : Option Opcode) (k : Nat),
    Fetched s raw v → SecondFetched s v raw2 → v.tag ≠ .undefined → v.tag ≠ .nop →
    implemented s.config v.tag = true →
    unit { request := { value := v, pc := s.regs.pc, raw, raw2 }, regs := s.regs, mem := s.mem, memSize := s.memSize,
           serial := s.execCount } = .noAnswer →
    Host.Core.run { State := State, Fault := Fault, Refusal := Refusal, step := stepWith unit, reset := State.reset }
      k s = .next s

/-- R143, R52: every byte that the execution unit stores inside the image, alone or among others and in whatever order,
is what its address then reads as, the last store to an address deciding it; every other byte reads as before; a later
fetch reads the halfword of the two bytes, of which both, one or none may be new; and the halfword is decoded by the
table as it was. That an answer's stores happen in the order of its list is the model's choice (log entry 1). -/
def Obligations.StoreSeenByNextFetch : Prop :=
  ∀ (s : State) (a : ExecAnswer), memWf s.mem = true →
    (∀ (addr : Nat) (b : Byte), addr < s.memSize → ByteAfterStores s.mem a.stores addr b →
      memRead (applyAnswer a s).mem addr = b) ∧
    (∀ addr : Nat, (∀ p ∈ a.stores, p.1 ≠ addr) → memRead (applyAnswer a s).mem addr = memRead s.mem addr) ∧
    (∀ (addr : Nat) (low high : Byte), addr + 2 ≤ s.memSize →
      ByteAfterStores s.mem a.stores addr low → ByteAfterStores s.mem a.stores (addr + 1) high →
      readHalfword (applyAnswer a s).mem (applyAnswer a s).memSize addr = some (halfwordLE low high)) ∧
    ∀ x : Opcode, lookup (applyAnswer a s) x = lookup s x

/-- R128: where all halfwords of an instruction lie inside a loaded image, the advance of `PC` is the exact sum, which is
at most the size of the image. -/
def Obligations.AdvanceDoesNotWrap : Prop :=
  ∀ (s : State) (q : ExecRequest), s.Inv → s.imageValid = true →
    q.pc.toNat + 2 * lenOf s.config q.value.tag ≤ s.memSize →
    (advance q s).regs.pc.toNat = q.pc.toNat + 2 * lenOf s.config q.value.tag ∧
    (advance q s).regs.pc.toNat ≤ s.memSize

/-! ## Whole-machine rules -/

/-- R146: a step asks the execution unit at most one question: two units that answer that one alike give the same step.
A step that ends with a result the dispatcher itself raises asks none: every unit gives the same. -/
def Obligations.AtMostOneRequest : Prop :=
  (∀ s : State, ∃ x : ExecInput, ∀ unit unit' : ExecUnit, unit x = unit' x → stepWith unit s = stepWith unit' s) ∧
  ∀ (unit unit' : ExecUnit) (s t : State) (r : TerminalResult), s.phase = .running → s.result = none →
    stepWith unit s = .next t → t.result = some r →
    r.kind ∈ [TermKind.misalignedFetch, .fetchOutOfBounds, .undefinedOpcode, .unimplemented] →
    stepWith unit' s = .next t

/-- R158(1), (2): a step that ends the run leaves `PC` where it was, and a result that the dispatcher itself raises
leaves every register and every byte of memory as it was, with no request made. -/
def Obligations.TerminalResultsArePrecise : Prop :=
  ∀ (unit : ExecUnit) (s t : State) (r : TerminalResult), s.phase = .running → s.result = none →
    stepWith unit s = .next t → t.result = some r →
    t.regs.pc = s.regs.pc ∧ r.pc = s.regs.pc ∧
    (r.kind ∈ [TermKind.misalignedFetch, .fetchOutOfBounds, .undefinedOpcode, .unimplemented] →
      t.regs = s.regs ∧ t.mem = s.mem ∧ t.execCount = s.execCount)

/-- R30, R31, R46: only an answer of the execution unit writes a general register, a stack pointer, the link register or
a status register (where flags lie), and during a run only such an answer writes memory. That a request which is never
answered writes none of them is the model's choice (log entry 4). -/
def Obligations.OnlyExecutionUnitWritesRegisters : Prop :=
  ∀ (unit : ExecUnit) (s t : State), stepWith unit s = .next t → t.execCount = s.execCount →
    t.regs = { s.regs with pc := t.regs.pc } ∧ (s.phase = .running → t.mem = s.mem)

/-- R25, R176, R187: a step of a run changes no configuration, table, report, image size, command or DEBUG reply, and
leaves the block running with the result as it was, or terminated. -/
def Obligations.RunLeavesControlState : Prop :=
  ∀ (unit : ExecUnit) (s t : State), s.phase = .running → stepWith unit s = .next t →
    SameControl s t ∧ (t.phase = .running ∧ t.result = s.result ∨ t.phase = .terminated ∧ t.result.isSome = true)

/-- R20, R37: no transition changes the configuration. -/
def Obligations.ConfigurationIsFixed : Prop :=
  ∀ s t : State, step s = .next t → t.config = s.config

/-- R173, R161: in `Terminated`, every transition but a `load` keeps the phase and the result. -/
def Obligations.ResultKeptUntilLoad : Prop :=
  ∀ s t : State, s.phase = .terminated → step s = .next t →
    (t.phase = .terminated ∧ t.result = s.result) ∨ ∃ entry image rest, s.hostQueue = .load entry image :: rest

/-- R120, R112, R182: a run never stops inside the model: from every running state that keeps the invariant, the step
answers a next state, which runs on or has ended with a result. For a request that the execution unit never answers,
the next state is the model's choice (log entry 4): the spec gives that step no successor, and an infinite run (R189). -/
def Obligations.RunningStepAlwaysAnswers : Prop :=
  ∀ s : State, s.Inv → s.phase = .running →
    ∃ t, step s = .next t ∧ (t.phase = .running ∨ t.phase = .terminated ∧ t.result.isSome = true)

/-! ## Host commands and reset -/

/-- R178: `initialize()`, where it is admitted, builds the table and the report anew, makes `Loaded` of `Uninitialized`
when an image is loaded, and changes nothing else; R179, R101: done twice it leaves what it left the first time. -/
def Obligations.InitialiseRebuildsTable : Prop :=
  (∀ s : State, s.phase ≠ .running → hostCommand .initialise s = .next { s with
    table := some (buildTable s.config)
    collisions := if s.config.collisionReport then collisionLines emptyTable (tableWrites s.config) else []
    phase := if s.phase = .uninitialized ∧ s.imageValid = true then .loaded else s.phase }) ∧
  ∀ s t u : State, hostCommand .initialise s = .next t → hostCommand .initialise t = .next u → u = t

/-- R180: `load` refuses an image of more than `2^32 - 1` bytes and an entry of more than 32 bits. Otherwise it takes the
image, whose bytes then read as the buffer's, sets its size and `PC`, clears the result, and makes the phase `Loaded` or
`Uninitialized` by whether a table is built. It writes no other register and not the table. -/
def Obligations.LoadTakesImage : Prop :=
  ∀ (s : State) (entry : Nat) (image : List Byte), s.phase ≠ .running →
    (image.length > 2 ^ 32 - 1 → hostCommand (.load entry image) s = .refused .imageTooLarge) ∧
    (image.length ≤ 2 ^ 32 - 1 → entry ≥ 2 ^ 32 → hostCommand (.load entry image) s = .refused .entryTooWide) ∧
    (image.length ≤ 2 ^ 32 - 1 → entry < 2 ^ 32 → ∃ t, hostCommand (.load entry image) s = .next t ∧
      (∀ (a : Nat) (b : Byte), image[a]? = some b → memRead t.mem a = b) ∧ memWf t.mem = true ∧
      t = { s with
        mem := t.mem
        memSize := image.length
        imageValid := true
        regs := { s.regs with pc := BitVec.ofNat 32 entry }
        result := none
        phase := if s.table.isSome then .loaded else .uninitialized })

/-- R177, R181: a command is refused for its phase exactly when a run is in progress or it is a `run()` outside
`Loaded`; a `run()` in `Loaded` starts the run and changes nothing else. -/
def Obligations.CommandsAdmittedByPhase : Prop :=
  ∀ s : State,
    (∀ c, hostCommand c s = .refused (.commandNotAdmitted s.phase) ↔
      s.phase = .running ∨ c = .run ∧ s.phase ≠ .loaded) ∧
    (s.phase = .loaded → hostCommand .run s = .next { s with phase := .running })

/-- The block outside a run: it performs the host's next command, and rests while there is none. The queue and the rest
are the model's choice (log entry 7). -/
def Obligations.IdleBlockPerformsHostCommand : Prop :=
  ∀ s : State, s.phase ≠ .running →
    (∀ c rest, s.hostQueue = c :: rest → step s = hostCommand c { s with hostQueue := rest }) ∧
    (s.hostQueue = [] → step s = .next s)

/-- R39, R175: what reset leaves in the items the spec gives a value for. -/
def Obligations.ResetValues : Prop :=
  State.reset.phase = .uninitialized ∧ State.reset.table = none ∧ State.reset.collisions = [] ∧
  State.reset.imageValid = false ∧ State.reset.result = none

/-- The state at reset keeps the invariant. That memory lists no byte then, and so is in canonical form, is the model's
choice (log entry 18). -/
def Obligations.InvariantAtReset : Prop := State.reset.Inv

/-- Every transition keeps the invariant (R10, R21, R26, R28, R35, R40, R84, R187). -/
def Obligations.InvariantKeptByStep : Prop :=
  ∀ s t : State, s.Inv → step s = .next t → t.Inv

/-- R151, L2-E3: the codes of the kinds of terminal result, and which are fatal. -/
def Obligations.TerminalKindCodes : Prop :=
  [TermKind.halted, .undefinedOpcode, .unimplemented, .fetchOutOfBounds, .dataOutOfBounds, .execError,
    .misalignedFetch].map kindCode = [0, 1, 2, 3, 4, 5, 6] ∧
  ∀ k : TermKind, kindFatal k = true ↔ k ≠ .halted
end

