-- ==== Sys2Proof/Laws/State.lean ====
section
/-! SUPPORT. What each update of the state leaves in each field: one lemma per field per update, so that no proof
unfolds a record update. -/

namespace Sys2Proof.Machine

@[simp] theorem setPc_config (s : State) (t : Word) : (setPc s t).config = s.config := rfl
@[simp] theorem setPc_phase (s : State) (t : Word) : (setPc s t).phase = s.phase := rfl
@[simp] theorem setPc_table (s : State) (t : Word) : (setPc s t).table = s.table := rfl
@[simp] theorem setPc_collisions (s : State) (t : Word) : (setPc s t).collisions = s.collisions := rfl
@[simp] theorem setPc_imageValid (s : State) (t : Word) : (setPc s t).imageValid = s.imageValid := rfl
@[simp] theorem setPc_memSize (s : State) (t : Word) : (setPc s t).memSize = s.memSize := rfl
@[simp] theorem setPc_result (s : State) (t : Word) : (setPc s t).result = s.result := rfl
@[simp] theorem setPc_regs (s : State) (t : Word) : (setPc s t).regs = { s.regs with pc := t } := rfl
@[simp] theorem setPc_mem (s : State) (t : Word) : (setPc s t).mem = s.mem := rfl
@[simp] theorem setPc_execCount (s : State) (t : Word) : (setPc s t).execCount = s.execCount := rfl
@[simp] theorem setPc_hostQueue (s : State) (t : Word) : (setPc s t).hostQueue = s.hostQueue := rfl
@[simp] theorem setPc_debugReply (s : State) (t : Word) : (setPc s t).debugReply = s.debugReply := rfl

@[simp] theorem raise_config (r : TerminalResult) (s : State) : (raise r s).config = s.config := rfl
@[simp] theorem raise_phase (r : TerminalResult) (s : State) : (raise r s).phase = .terminated := rfl
@[simp] theorem raise_table (r : TerminalResult) (s : State) : (raise r s).table = s.table := rfl
@[simp] theorem raise_collisions (r : TerminalResult) (s : State) : (raise r s).collisions = s.collisions := rfl
@[simp] theorem raise_imageValid (r : TerminalResult) (s : State) : (raise r s).imageValid = s.imageValid := rfl
@[simp] theorem raise_memSize (r : TerminalResult) (s : State) : (raise r s).memSize = s.memSize := rfl
@[simp] theorem raise_result (r : TerminalResult) (s : State) : (raise r s).result = some r := rfl
@[simp] theorem raise_regs (r : TerminalResult) (s : State) : (raise r s).regs = s.regs := rfl
@[simp] theorem raise_mem (r : TerminalResult) (s : State) : (raise r s).mem = s.mem := rfl
@[simp] theorem raise_execCount (r : TerminalResult) (s : State) : (raise r s).execCount = s.execCount := rfl
@[simp] theorem raise_hostQueue (r : TerminalResult) (s : State) : (raise r s).hostQueue = s.hostQueue := rfl
@[simp] theorem raise_debugReply (r : TerminalResult) (s : State) : (raise r s).debugReply = s.debugReply := rfl

@[simp] theorem applyAnswer_config (a : ExecAnswer) (s : State) : (applyAnswer a s).config = s.config := rfl
@[simp] theorem applyAnswer_phase (a : ExecAnswer) (s : State) : (applyAnswer a s).phase = s.phase := rfl
@[simp] theorem applyAnswer_table (a : ExecAnswer) (s : State) : (applyAnswer a s).table = s.table := rfl
@[simp] theorem applyAnswer_collisions (a : ExecAnswer) (s : State) : (applyAnswer a s).collisions = s.collisions := rfl
@[simp] theorem applyAnswer_imageValid (a : ExecAnswer) (s : State) : (applyAnswer a s).imageValid = s.imageValid := rfl
@[simp] theorem applyAnswer_memSize (a : ExecAnswer) (s : State) : (applyAnswer a s).memSize = s.memSize := rfl
@[simp] theorem applyAnswer_result (a : ExecAnswer) (s : State) : (applyAnswer a s).result = s.result := rfl
@[simp] theorem applyAnswer_regs (a : ExecAnswer) (s : State) :
    (applyAnswer a s).regs = regWrites s.regs a.regWrites := rfl
@[simp] theorem applyAnswer_mem (a : ExecAnswer) (s : State) :
    (applyAnswer a s).mem = memStores s.memSize s.mem a.stores := rfl
@[simp] theorem applyAnswer_execCount (a : ExecAnswer) (s : State) :
    (applyAnswer a s).execCount = s.execCount + 1 := rfl
@[simp] theorem applyAnswer_hostQueue (a : ExecAnswer) (s : State) : (applyAnswer a s).hostQueue = s.hostQueue := rfl
@[simp] theorem applyAnswer_debugReply (a : ExecAnswer) (s : State) : (applyAnswer a s).debugReply = s.debugReply := rfl

@[simp] theorem hostInitialise_config (s : State) : (hostInitialise s).config = s.config := rfl
@[simp] theorem hostInitialise_phase (s : State) :
    (hostInitialise s).phase = if s.phase = .uninitialized ∧ s.imageValid = true then .loaded else s.phase := rfl
@[simp] theorem hostInitialise_table (s : State) : (hostInitialise s).table = some (buildTable s.config) := rfl
@[simp] theorem hostInitialise_collisions (s : State) : (hostInitialise s).collisions = collisionReport s.config := rfl
@[simp] theorem hostInitialise_imageValid (s : State) : (hostInitialise s).imageValid = s.imageValid := rfl
@[simp] theorem hostInitialise_memSize (s : State) : (hostInitialise s).memSize = s.memSize := rfl
@[simp] theorem hostInitialise_result (s : State) : (hostInitialise s).result = s.result := rfl
@[simp] theorem hostInitialise_regs (s : State) : (hostInitialise s).regs = s.regs := rfl
@[simp] theorem hostInitialise_mem (s : State) : (hostInitialise s).mem = s.mem := rfl
@[simp] theorem hostInitialise_execCount (s : State) : (hostInitialise s).execCount = s.execCount := rfl
@[simp] theorem hostInitialise_hostQueue (s : State) : (hostInitialise s).hostQueue = s.hostQueue := rfl
@[simp] theorem hostInitialise_debugReply (s : State) : (hostInitialise s).debugReply = s.debugReply := rfl

@[simp] theorem hostLoad_config (e : Word) (b : List Byte) (s : State) : (hostLoad e b s).config = s.config := rfl
@[simp] theorem hostLoad_phase (e : Word) (b : List Byte) (s : State) :
    (hostLoad e b s).phase = if s.table.isSome then .loaded else .uninitialized := rfl
@[simp] theorem hostLoad_table (e : Word) (b : List Byte) (s : State) : (hostLoad e b s).table = s.table := rfl
@[simp] theorem hostLoad_collisions (e : Word) (b : List Byte) (s : State) :
    (hostLoad e b s).collisions = s.collisions := rfl
@[simp] theorem hostLoad_imageValid (e : Word) (b : List Byte) (s : State) : (hostLoad e b s).imageValid = true := rfl
@[simp] theorem hostLoad_memSize (e : Word) (b : List Byte) (s : State) : (hostLoad e b s).memSize = b.length := rfl
@[simp] theorem hostLoad_result (e : Word) (b : List Byte) (s : State) : (hostLoad e b s).result = none := rfl
@[simp] theorem hostLoad_regs (e : Word) (b : List Byte) (s : State) :
    (hostLoad e b s).regs = { s.regs with pc := e } := rfl
@[simp] theorem hostLoad_mem (e : Word) (b : List Byte) (s : State) : (hostLoad e b s).mem = memOfBytes 0 b := rfl
@[simp] theorem hostLoad_execCount (e : Word) (b : List Byte) (s : State) :
    (hostLoad e b s).execCount = s.execCount := rfl
@[simp] theorem hostLoad_hostQueue (e : Word) (b : List Byte) (s : State) :
    (hostLoad e b s).hostQueue = s.hostQueue := rfl
@[simp] theorem hostLoad_debugReply (e : Word) (b : List Byte) (s : State) :
    (hostLoad e b s).debugReply = s.debugReply := rfl

@[simp] theorem hostRun_config (s : State) : (hostRun s).config = s.config := rfl
@[simp] theorem hostRun_phase (s : State) : (hostRun s).phase = .running := rfl
@[simp] theorem hostRun_table (s : State) : (hostRun s).table = s.table := rfl
@[simp] theorem hostRun_collisions (s : State) : (hostRun s).collisions = s.collisions := rfl
@[simp] theorem hostRun_imageValid (s : State) : (hostRun s).imageValid = s.imageValid := rfl
@[simp] theorem hostRun_memSize (s : State) : (hostRun s).memSize = s.memSize := rfl
@[simp] theorem hostRun_result (s : State) : (hostRun s).result = s.result := rfl
@[simp] theorem hostRun_regs (s : State) : (hostRun s).regs = s.regs := rfl
@[simp] theorem hostRun_mem (s : State) : (hostRun s).mem = s.mem := rfl
@[simp] theorem hostRun_execCount (s : State) : (hostRun s).execCount = s.execCount := rfl
@[simp] theorem hostRun_hostQueue (s : State) : (hostRun s).hostQueue = s.hostQueue := rfl
@[simp] theorem hostRun_debugReply (s : State) : (hostRun s).debugReply = s.debugReply := rfl

@[simp] theorem hostReply_config (r : List (Opcode × InstrValue)) (s : State) : (hostReply r s).config = s.config := rfl
@[simp] theorem hostReply_phase (r : List (Opcode × InstrValue)) (s : State) : (hostReply r s).phase = s.phase := rfl
@[simp] theorem hostReply_table (r : List (Opcode × InstrValue)) (s : State) : (hostReply r s).table = s.table := rfl
@[simp] theorem hostReply_collisions (r : List (Opcode × InstrValue)) (s : State) :
    (hostReply r s).collisions = s.collisions := rfl
@[simp] theorem hostReply_imageValid (r : List (Opcode × InstrValue)) (s : State) :
    (hostReply r s).imageValid = s.imageValid := rfl
@[simp] theorem hostReply_memSize (r : List (Opcode × InstrValue)) (s : State) :
    (hostReply r s).memSize = s.memSize := rfl
@[simp] theorem hostReply_result (r : List (Opcode × InstrValue)) (s : State) : (hostReply r s).result = s.result := rfl
@[simp] theorem hostReply_regs (r : List (Opcode × InstrValue)) (s : State) : (hostReply r s).regs = s.regs := rfl
@[simp] theorem hostReply_mem (r : List (Opcode × InstrValue)) (s : State) : (hostReply r s).mem = s.mem := rfl
@[simp] theorem hostReply_execCount (r : List (Opcode × InstrValue)) (s : State) :
    (hostReply r s).execCount = s.execCount := rfl
@[simp] theorem hostReply_hostQueue (r : List (Opcode × InstrValue)) (s : State) :
    (hostReply r s).hostQueue = s.hostQueue := rfl
@[simp] theorem hostReply_debugReply (r : List (Opcode × InstrValue)) (s : State) :
    (hostReply r s).debugReply = some r := rfl

@[simp] theorem advance_pc (q : ExecRequest) (s : State) :
    (advance q s).regs.pc = q.pc + BitVec.ofNat 32 (2 * lenOf s.config q.value.tag) := rfl

end Sys2Proof.Machine
end

