-- ==== Sys2Proof/Laws/Table.lean ====
section
/-! SUPPORT. The decode table is an array: a read after a write, the table of a function, and that two full tables with
the same 65,536 entries are the same table. -/

namespace Sys2Proof.Machine

theorem treeFull_halves {d : Nat} {t : DecodeTable} (h : treeFull (d + 1) t = true) :
    treeFull d (zeroHalf t) = true ∧ treeFull d (oneHalf t) = true := by
  cases t with
  | leaf v => simp [treeFull] at h
  | node z o => simpa [treeFull, zeroHalf, oneHalf] using h

theorem treeGet_treeSet_same (d : Nat) (t : DecodeTable) (i : Nat) (v : InstrValue) :
    treeGet d (treeSet d t i v) i = v := by
  induction d generalizing t with
  | zero => rfl
  | succ d ih => by_cases h : i.testBit d <;> simp [treeSet, treeGet, h, zeroHalf, oneHalf, ih]

/-- Two indices of a tree of depth `d` that differ, differ in one of their low `d` bits. -/
theorem mod_two_pow_succ_eq {d i j : Nat} (hb : i.testBit d = j.testBit d) (h : i % 2 ^ d = j % 2 ^ d) :
    i % 2 ^ (d + 1) = j % 2 ^ (d + 1) := by
  apply Nat.eq_of_testBit_eq
  intro k
  have hk := congrArg (·.testBit k) h
  simp only [Nat.testBit_mod_two_pow] at hk ⊢
  by_cases hkd : k = d
  · subst hkd; simp [hb]
  · by_cases hlt : k < d
    · have : k < d + 1 := by omega
      simpa [hlt, this] using hk
    · have : ¬ k < d + 1 := by omega
      simp [this]

theorem treeGet_treeSet_other (d : Nat) (t : DecodeTable) (i j : Nat) (v : InstrValue)
    (h : i % 2 ^ d ≠ j % 2 ^ d) : treeGet d (treeSet d t i v) j = treeGet d t j := by
  induction d generalizing t with
  | zero => simp [Nat.mod_one] at h
  | succ d ih =>
    by_cases hb : i.testBit d = j.testBit d
    · have h' : i % 2 ^ d ≠ j % 2 ^ d := fun e => h (mod_two_pow_succ_eq hb e)
      by_cases hi : i.testBit d
      · have hj : j.testBit d = true := hb ▸ hi
        simp [treeSet, treeGet, hi, hj, oneHalf, ih _ h']
      · have hj : j.testBit d = false := by rw [← hb]; simpa using hi
        simp [treeSet, treeGet, hi, hj, zeroHalf, ih _ h']
    · by_cases hi : i.testBit d
      · have hj : j.testBit d = false := by simpa [hi] using hb
        simp [treeSet, treeGet, hi, hj, zeroHalf]
      · have hj : j.testBit d = true := by simpa [hi] using hb
        simp [treeSet, treeGet, hi, hj, oneHalf]

theorem treeFull_treeSet {d : Nat} {t : DecodeTable} (i : Nat) (v : InstrValue) (h : treeFull d t = true) :
    treeFull d (treeSet d t i v) = true := by
  induction d generalizing t with
  | zero => rfl
  | succ d ih =>
    obtain ⟨hz, ho⟩ := treeFull_halves h
    by_cases hi : i.testBit d <;> simp [treeSet, treeFull, hi, hz, ho, ih]

theorem treeFull_treeOfFn (f : Nat → InstrValue) (d start : Nat) : treeFull d (treeOfFn f d start) = true := by
  induction d generalizing start with
  | zero => rfl
  | succ d ih => simp [treeOfFn, treeFull, ih]

theorem treeGet_treeOfFn (f : Nat → InstrValue) (d start i : Nat) :
    treeGet d (treeOfFn f d start) i = f (start + i % 2 ^ d) := by
  induction d generalizing start with
  | zero => simp [treeOfFn, treeGet, firstLeaf, Nat.mod_one]
  | succ d ih =>
    have hmod : i % 2 ^ (d + 1) = i % 2 ^ d + 2 ^ d * (i.testBit d).toNat := by
      rw [Nat.pow_succ, Nat.mod_mul, Nat.testBit_eq_decide_div_mod_eq]
      rcases Nat.mod_two_eq_zero_or_one (i / 2 ^ d) with h | h <;> simp [h]
    by_cases hi : i.testBit d
    · simp only [treeOfFn, treeGet, hi, if_true, oneHalf, ih, hmod, Bool.toNat_true]
      congr 1; omega
    · have hi' : i.testBit d = false := by simpa using hi
      simp [treeOfFn, treeGet, hi', zeroHalf, ih, hmod]

/-- Only the low `d` bits of an index are read. -/
theorem treeGet_congr_mod {d : Nat} (t : DecodeTable) {i j : Nat} (h : i % 2 ^ d = j % 2 ^ d) :
    treeGet d t i = treeGet d t j := by
  induction d generalizing t with
  | zero => rfl
  | succ d ih =>
    have hbit : i.testBit d = j.testBit d := by
      have := congrArg (·.testBit d) h
      simpa [Nat.testBit_mod_two_pow] using this
    have hlow : i % 2 ^ d = j % 2 ^ d := by
      have := congrArg (· % 2 ^ d) h
      simpa [Nat.mod_mod_of_dvd _ (Nat.pow_dvd_pow 2 (Nat.le_succ d))] using this
    simp [treeGet, hbit, ih _ hlow]

theorem tree_ext {d : Nat} {t u : DecodeTable} (ht : treeFull d t = true) (hu : treeFull d u = true)
    (h : ∀ i < 2 ^ d, treeGet d t i = treeGet d u i) : t = u := by
  induction d generalizing t u with
  | zero =>
    cases t with
    | node z o => simp [treeFull] at ht
    | leaf v =>
      cases u with
      | node z o => simp [treeFull] at hu
      | leaf w => simpa [treeGet, firstLeaf] using h 0 (by simp)
  | succ d ih =>
    cases t with
    | leaf v => simp [treeFull] at ht
    | node tz tone =>
      cases u with
      | leaf v => simp [treeFull] at hu
      | node uz uone =>
        simp only [treeFull, Bool.and_eq_true] at ht hu
        have hz : tz = uz := ih ht.1 hu.1 fun i hi => by
          have hb : i.testBit d = false := Nat.testBit_lt_two_pow hi
          have := h i (by rw [Nat.pow_succ]; omega)
          simpa [treeGet, hb, zeroHalf] using this
        have ho : tone = uone := ih ht.2 hu.2 fun i hi => by
          have hb : (2 ^ d + i).testBit d = true := by
            rw [Nat.testBit_two_pow_add_eq, Nat.testBit_lt_two_pow hi]; rfl
          have hlow : ∀ x, treeGet d x (2 ^ d + i) = treeGet d x i := fun x => treeGet_congr_mod x (by simp)
          have := h (2 ^ d + i) (by rw [Nat.pow_succ]; omega)
          simpa [treeGet, hb, oneHalf, hlow] using this
        rw [hz, ho]

@[simp] theorem tableGet_tableSet_same (T : DecodeTable) (i : Opcode) (v : InstrValue) :
    tableGet (tableSet T i v) i = v := treeGet_treeSet_same 16 T i.toNat v

theorem tableGet_tableSet_other (T : DecodeTable) {i j : Opcode} (v : InstrValue) (h : i ≠ j) :
    tableGet (tableSet T i v) j = tableGet T j := by
  apply treeGet_treeSet_other
  rw [Nat.mod_eq_of_lt i.isLt, Nat.mod_eq_of_lt j.isLt]
  exact fun e => h (BitVec.eq_of_toNat_eq e)

theorem tableFull_tableSet {T : DecodeTable} (i : Opcode) (v : InstrValue) (h : tableFull T = true) :
    tableFull (tableSet T i v) = true := treeFull_treeSet i.toNat v h

@[simp] theorem tableFull_tableOfFn (f : Opcode → InstrValue) : tableFull (tableOfFn f) = true :=
  treeFull_treeOfFn _ 16 0

@[simp] theorem tableGet_tableOfFn (f : Opcode → InstrValue) (x : Opcode) : tableGet (tableOfFn f) x = f x := by
  simp only [tableGet, tableOfFn, treeGet_treeOfFn, Nat.mod_eq_of_lt x.isLt, Nat.zero_add]
  simp

/-- Two tables with the same 65,536 entries are the same data. -/
theorem table_ext {T U : DecodeTable} (hT : tableFull T = true) (hU : tableFull U = true)
    (h : ∀ x, tableGet T x = tableGet U x) : T = U :=
  tree_ext hT hU fun i hi => by
    have := h (BitVec.ofNat 16 i)
    simpa only [tableGet, BitVec.toNat_ofNat, Nat.mod_eq_of_lt hi] using this

end Sys2Proof.Machine
end

