-- ==== Sys2Proof/Laws/Memory.lean ====
section
/-! SUPPORT. The memory image and the register file: a read after a write, the canonical form, and that register writes
leave the program counter alone. -/

namespace Sys2Proof.Machine

/-! ## Memory -/

theorem memRead_of_all_ne {m : Memory} {a : Nat} (h : ∀ c ∈ m, c.1 ≠ a) : memRead m a = Config.unlistedByte := by
  induction m with
  | nil => rfl
  | cons c m ih =>
    simp only [List.mem_cons, forall_eq_or_imp] at h
    simp [memRead, h.1, ih h.2]

theorem memWf_cons {c : Host.Cell} {m : Memory} :
    memWf (c :: m) = true ↔ c.2 ≠ Config.unlistedByte ∧ (∀ x ∈ m, c.1 < x.1) ∧ memWf m = true := by
  rw [memWf, Bool.and_eq_true, Bool.and_eq_true, bne_iff_ne, List.all_eq_true, and_assoc]
  simp only [decide_eq_true_eq]

/-- A written list's addresses are the written one and those of the list before. -/
theorem memWrite_mem {m : Memory} {a : Nat} {b : Byte} {c : Host.Cell} (h : c ∈ memWrite m a b) :
    c.1 = a ∨ c ∈ m := by
  induction m with
  | nil =>
    simp only [memWrite] at h
    split at h
    · exact .inr h
    · exact .inl (by rw [List.mem_singleton.mp h])
  | cons d m ih =>
    simp only [memWrite] at h
    split at h
    · split at h
      · exact .inr h
      · rcases List.mem_cons.mp h with rfl | h
        · exact .inl rfl
        · exact .inr h
    · split at h
      · split at h
        · exact .inr (List.mem_cons_of_mem _ h)
        · rcases List.mem_cons.mp h with rfl | h
          · exact .inl rfl
          · exact .inr (List.mem_cons_of_mem _ h)
      · rcases List.mem_cons.mp h with rfl | h
        · exact .inr List.mem_cons_self
        · exact (ih h).imp_right (List.mem_cons_of_mem _)

theorem memWf_memWrite {m : Memory} (a : Nat) (b : Byte) (h : memWf m = true) : memWf (memWrite m a b) = true := by
  induction m with
  | nil =>
    simp only [memWrite]
    split
    · rfl
    · next hb => exact memWf_cons.mpr ⟨hb, by simp, rfl⟩
  | cons c m ih =>
    obtain ⟨hne, hall, hm⟩ := memWf_cons.mp h
    simp only [memWrite]
    split
    · next hlt =>
      split
      · exact h
      · next hb =>
        refine memWf_cons.mpr ⟨hb, fun x hx => ?_, h⟩
        rcases List.mem_cons.mp hx with rfl | hx
        · exact hlt
        · exact lt_trans hlt (hall x hx)
    · split
      · next heq =>
        split
        · exact hm
        · next hb => exact memWf_cons.mpr ⟨hb, fun x hx => heq ▸ hall x hx, hm⟩
      · refine memWf_cons.mpr ⟨hne, fun x hx => ?_, ih hm⟩
        rcases memWrite_mem hx with hx | hx
        · omega
        · exact hall x hx

theorem memRead_cons_below {c : Host.Cell} {m : Memory} {a : Nat} (ha : a < c.1) (h : ∀ x ∈ m, c.1 < x.1) :
    memRead (c :: m) a = Config.unlistedByte :=
  memRead_of_all_ne fun x hx => by
    rcases List.mem_cons.mp hx with rfl | hx
    · omega
    · have := h x hx; omega

theorem memRead_head {c : Host.Cell} {m : Memory} (h : ∀ x ∈ m, c.1 < x.1) : memRead m c.1 = Config.unlistedByte :=
  memRead_of_all_ne fun x hx => by have := h x hx; omega

/-- A read after a write of a memory in canonical form. -/
theorem memRead_memWrite {m : Memory} (a : Nat) (b : Byte) (a' : Nat) (h : memWf m = true) :
    memRead (memWrite m a b) a' = if a' = a then b else memRead m a' := by
  induction m with
  | nil =>
    simp only [memWrite]
    split
    · next hb => simp [memRead, hb]
    · simp [memRead, eq_comm]
  | cons c m ih =>
    obtain ⟨-, hall, hm⟩ := memWf_cons.mp h
    simp only [memWrite]
    split
    · next hlt =>
      split
      · next hb =>
        split
        · next ha => rw [ha, memRead_cons_below hlt hall, hb]
        · rfl
      · rw [memRead]
        simp [eq_comm]
    · split
      · next heq =>
        split
        · next hb =>
          split
          · next ha => rw [ha, heq, memRead_head hall, hb]
          · next ha => rw [memRead, if_neg (fun e => ha (by rw [heq, e]))]
        · simp only [memRead, ← heq]
          by_cases ha : a = a' <;> simp [ha, eq_comm]
      · simp only [memRead, ih hm]
        by_cases hc : c.1 = a'
        · have : a' ≠ a := by omega
          simp [hc, this]
        · simp [hc]

theorem memOfBytes_mem {a : Nat} {bs : List Byte} {c : Host.Cell} (h : c ∈ memOfBytes a bs) :
    a ≤ c.1 ∧ c.1 < a + bs.length := by
  induction bs generalizing a with
  | nil => simp [memOfBytes] at h
  | cons b bs ih =>
    simp only [memOfBytes] at h
    simp only [List.length_cons]
    split at h
    · have := ih h; omega
    · rcases List.mem_cons.mp h with rfl | h
      · simp
      · have := ih h; omega

theorem memWf_memOfBytes (a : Nat) (bs : List Byte) : memWf (memOfBytes a bs) = true := by
  induction bs generalizing a with
  | nil => rfl
  | cons b bs ih =>
    simp only [memOfBytes]
    split
    · exact ih _
    · next hb => exact memWf_cons.mpr ⟨hb, fun c hc => by have := memOfBytes_mem hc; omega, ih _⟩

/-- A loaded image reads, at every address, as the buffer it was loaded from (R40). -/
theorem memRead_memOfBytes (a : Nat) (bs : List Byte) (i : Nat) :
    memRead (memOfBytes a bs) (a + i) = bs.getD i Config.unlistedByte := by
  induction bs generalizing a i with
  | nil => rfl
  | cons b bs ih =>
    cases i with
    | zero =>
      simp only [memOfBytes, Nat.add_zero, List.getD_cons_zero]
      split
      · next hb =>
        rw [hb]
        exact memRead_of_all_ne fun c hc => by have := memOfBytes_mem hc; omega
      · simp [memRead]
    | succ i =>
      have : a + (i + 1) = a + 1 + i := by omega
      simp only [memOfBytes, List.getD_cons_succ, this]
      split
      · exact ih _ _
      · have : a ≠ a + 1 + i := by omega
        simp [memRead, this, ih]

theorem memWf_memStores (size : Nat) {m : Memory} (ss : List (Nat × Byte)) (h : memWf m = true) :
    memWf (memStores size m ss) = true := by
  induction ss generalizing m with
  | nil => exact h
  | cons p ss ih =>
    simp only [memStores, List.foldl_cons]
    exact ih (by split <;> simp [memWf_memWrite, h])

theorem memStores_inImage (size : Nat) {m : Memory} (ss : List (Nat × Byte)) (h : ∀ c ∈ m, c.1 < size) :
    ∀ c ∈ memStores size m ss, c.1 < size := by
  induction ss generalizing m with
  | nil => exact h
  | cons p ss ih =>
    simp only [memStores, List.foldl_cons]
    refine ih fun c hc => ?_
    split at hc
    · next hp => rcases memWrite_mem hc with e | hc <;> [omega; exact h c hc]
    · exact h c hc

/-- A byte that no store names reads as before. -/
theorem memRead_memStores_other (size : Nat) {m : Memory} (ss : List (Nat × Byte)) {a : Nat} (h : memWf m = true)
    (ha : ∀ p ∈ ss, p.1 ≠ a) : memRead (memStores size m ss) a = memRead m a := by
  induction ss generalizing m with
  | nil => rfl
  | cons p ss ih =>
    simp only [List.mem_cons, forall_eq_or_imp] at ha
    simp only [memStores, List.foldl_cons]
    split
    · refine (ih (memWf_memWrite _ _ h) ha.2).trans ?_
      simp [memRead_memWrite _ _ _ h, Ne.symm ha.1]
    · exact ih h ha.2

theorem memStores_append (size : Nat) (m : Memory) (ss ss' : List (Nat × Byte)) :
    memStores size m (ss ++ ss') = memStores size (memStores size m ss) ss' := by
  simp [memStores]

/-- The last store to an address inside the image is what is then read there. -/
theorem memRead_memStores_last {size : Nat} {m : Memory} {before after : List (Nat × Byte)} {a : Nat} {b : Byte}
    (h : memWf m = true) (ha : a < size) (hl : ∀ p ∈ after, p.1 ≠ a) :
    memRead (memStores size m (before ++ (a, b) :: after)) a = b := by
  have hb := memWf_memStores size before h
  rw [memStores_append]
  simp only [memStores, List.foldl_cons, ha, if_true] at hb ⊢
  refine (memRead_memStores_other size after (memWf_memWrite a b hb) hl).trans ?_
  simp [memRead_memWrite _ _ _ hb]

/-- Two memories in canonical form that read the same are the same data. -/
theorem mem_ext {m n : Memory} (hm : memWf m = true) (hn : memWf n = true) (h : ∀ a, memRead m a = memRead n a) :
    m = n := by
  induction m generalizing n with
  | nil =>
    cases n with
    | nil => rfl
    | cons d n =>
      have := h d.1
      simp only [memRead, if_true] at this
      exact absurd this.symm (memWf_cons.mp hn).1
  | cons c m ih =>
    obtain ⟨hc, hall, hmw⟩ := memWf_cons.mp hm
    cases n with
    | nil =>
      have := h c.1
      simp only [memRead, if_true] at this
      exact absurd this hc
    | cons d n =>
      obtain ⟨hd, halln, hnw⟩ := memWf_cons.mp hn
      have haddr : c.1 = d.1 := by
        rcases lt_trichotomy c.1 d.1 with hlt | heq | hgt
        · have := h c.1
          rw [memRead_cons_below hlt halln, memRead, if_pos rfl] at this
          exact absurd this hc
        · exact heq
        · have := h d.1
          rw [memRead_cons_below hgt hall, memRead, if_pos rfl] at this
          exact absurd this.symm hd
      have hbyte : c.2 = d.2 := by simpa [memRead, haddr] using h c.1
      have hrest : ∀ a, memRead m a = memRead n a := fun a => by
        by_cases ha : c.1 = a
        · rw [← ha, memRead_head hall, haddr, memRead_head halln]
        · simpa [memRead, ha, haddr ▸ ha] using h a
      rw [ih hmw hnw hrest, Prod.ext haddr hbyte]

/-! ## Registers -/

@[simp] theorem regWrite_pc (r : RegFile) (id : RegId) (w : Word) : (regWrite r id w).pc = r.pc := by
  cases id <;> rfl

@[simp] theorem regWrites_pc (r : RegFile) (ws : List (RegId × Word)) : (regWrites r ws).pc = r.pc := by
  induction ws generalizing r with
  | nil => rfl
  | cons p ws ih => simpa [regWrites] using ih (regWrite r p.1 p.2)

/-- No write changes how many status registers there are. -/
@[simp] theorem regWrites_status_length (r : RegFile) (ws : List (RegId × Word)) :
    (regWrites r ws).status.length = r.status.length := by
  induction ws generalizing r with
  | nil => rfl
  | cons p ws ih =>
    have : (regWrite r p.1 p.2).status.length = r.status.length := by cases p.1 <;> simp [regWrite]
    simpa [regWrites, this] using ih (regWrite r p.1 p.2)

theorem regRead_regWrite_same {r : RegFile} {id : RegId} {w old : Word} (h : regRead r id = some old) :
    regRead (regWrite r id w) id = some w := by
  cases id with
  | status n =>
    simp only [regRead, regWrite] at h ⊢
    simp [(List.getElem?_eq_some_iff.mp h).1]
  | _ => simp [regRead, regWrite]

theorem regRead_regWrite_other (r : RegFile) {id id' : RegId} (w : Word) (h : id ≠ id') :
    regRead (regWrite r id w) id' = regRead r id' := by
  cases id with
  | gpr n =>
    cases id' with
    | gpr k =>
      have hv : n.val ≠ k.val := fun e => h (by rw [Fin.ext e])
      simp [regRead, regWrite, hv]
    | _ => rfl
  | status n =>
    cases id' with
    | status k =>
      have hv : n ≠ k := fun e => h (by rw [e])
      simp [regRead, regWrite, List.getElem?_set_ne hv]
    | _ => rfl
  | _ => cases id' <;> first | rfl | exact absurd rfl h

/-- A register that no write names reads as before. -/
theorem regRead_regWrites_other (r : RegFile) (ws : List (RegId × Word)) {id : RegId} (h : ∀ p ∈ ws, p.1 ≠ id) :
    regRead (regWrites r ws) id = regRead r id := by
  induction ws generalizing r with
  | nil => rfl
  | cons p ws ih =>
    simp only [List.mem_cons, forall_eq_or_imp] at h
    simp only [regWrites, List.foldl_cons]
    exact (ih _ h.2).trans (regRead_regWrite_other r p.2 h.1)

end Sys2Proof.Machine
end

