-- ==== Sys2Proof/Laws/Generator.lean ====
section
/-! SUPPORT. What a sequence of table writes leaves: the last write to each index (R94), in a table that stays full. -/

namespace Sys2Proof.Machine

@[simp] theorem applyWrites_nil (T : DecodeTable) : applyWrites T [] = T := rfl

@[simp] theorem applyWrites_cons (T : DecodeTable) (w : TableWrite) (ws : List TableWrite) :
    applyWrites T (w :: ws) = applyWrites (tableSet T w.1 w.2) ws := rfl

theorem applyWrites_append (T : DecodeTable) (ws ws' : List TableWrite) :
    applyWrites T (ws ++ ws') = applyWrites (applyWrites T ws) ws' := by
  simp [applyWrites]

/-- An index that no write names reads as before. -/
theorem tableGet_applyWrites_other (T : DecodeTable) (ws : List TableWrite) {x : Opcode} (h : ∀ w ∈ ws, w.1 ≠ x) :
    tableGet (applyWrites T ws) x = tableGet T x := by
  induction ws generalizing T with
  | nil => rfl
  | cons w ws ih =>
    simp only [List.mem_cons, forall_eq_or_imp] at h
    rw [applyWrites_cons, ih _ h.2, tableGet_tableSet_other T w.2 h.1]

theorem tableFull_applyWrites {T : DecodeTable} (ws : List TableWrite) (h : tableFull T = true) :
    tableFull (applyWrites T ws) = true := by
  induction ws generalizing T with
  | nil => exact h
  | cons w ws ih => exact ih (tableFull_tableSet w.1 w.2 h)

@[simp] theorem tableFull_emptyTable : tableFull emptyTable = true := tableFull_tableOfFn _

@[simp] theorem tableGet_emptyTable (x : Opcode) : tableGet emptyTable x = undefinedValue := tableGet_tableOfFn _ x

@[simp] theorem setField_tag (v : InstrValue) (f : FieldName) (a : Byte) : (setField v f a).tag = v.tag := rfl

/-- The value of a combination has the encoding's tag. -/
@[simp] theorem comboValue_tag (cfg : Configuration) (e : EncodingSpec) (c : List (Option Nat)) :
    (comboValue cfg e c).tag = e.tag := by
  have key : ∀ (l : List (OperandSpec × Option Nat)) (v : InstrValue),
      (l.foldl (fun v p => setField v p.1.name (fieldValue p.1 p.2)) v).tag = v.tag := by
    intro l
    induction l with
    | nil => intro v; rfl
    | cons p l ih => intro v; exact (ih _).trans (setField_tag _ _ _)
  exact key _ _

end Sys2Proof.Machine
end

