-- ==== Sys2Proof/Laws/Dispatch.lean ====
section
/-! SUPPORT. Everything the shared operations of a step can do, said once: retirement, the EXEC interface, the
dispatcher's step, the host's commands, and the transition of the block. -/

namespace Sys2Proof.Machine

theorem SameControl.refl (s : State) : SameControl s s := ⟨rfl, rfl, rfl, rfl, rfl, rfl, rfl⟩

theorem SameControl.trans {s t u : State} (h : SameControl s t) (k : SameControl t u) : SameControl s u :=
  ⟨k.1.trans h.1, k.2.trans h.2, k.3.trans h.3, k.4.trans h.4, k.5.trans h.5, k.6.trans h.6, k.7.trans h.7⟩

theorem raise_sameControl (r : TerminalResult) (s : State) : SameControl s (raise r s) :=
  ⟨rfl, rfl, rfl, rfl, rfl, rfl, rfl⟩

theorem applyAnswer_sameControl (a : ExecAnswer) (s : State) : SameControl s (applyAnswer a s) :=
  ⟨rfl, rfl, rfl, rfl, rfl, rfl, rfl⟩

/-- An answer's effects leave the program counter alone (R126). -/
theorem applyAnswer_pc (a : ExecAnswer) (s : State) : (applyAnswer a s).regs.pc = s.regs.pc := by simp

/-- Retiring writes the program counter, or ends the run with one of the results the execution unit reports. -/
theorem retire_cases (q : ExecRequest) (o : ExecOutcome) (s : State) :
    (∃ t, retire q o s = setPc s t ∧ (o = .sequential ∨ o = .jump t)) ∨
    (∃ r, retire q o s = raise r s ∧ (r.kind = .halted ∨ r.kind = .execError ∨ r.kind = .dataOutOfBounds)) := by
  cases o with
  | sequential => exact .inl ⟨_, rfl, .inl rfl⟩
  | jump t => exact .inl ⟨t, rfl, .inr rfl⟩
  | halt => exact .inr ⟨_, rfl, .inl rfl⟩
  | error c => exact .inr ⟨_, rfl, .inr (.inl rfl)⟩
  | dataOutOfBounds a => exact .inr ⟨_, rfl, .inr (.inr rfl)⟩

theorem retire_sameControl (q : ExecRequest) (o : ExecOutcome) (s : State) : SameControl s (retire q o s) := by
  cases o <;> exact ⟨rfl, rfl, rfl, rfl, rfl, rfl, rfl⟩

@[simp] theorem retire_mem (q : ExecRequest) (o : ExecOutcome) (s : State) : (retire q o s).mem = s.mem := by
  cases o <;> rfl

@[simp] theorem retire_execCount (q : ExecRequest) (o : ExecOutcome) (s : State) :
    (retire q o s).execCount = s.execCount := by
  cases o <;> rfl

/-- Everything the arm of an external tag can do: raise `Unimplemented`, hang, or retire an answer. -/
theorem external_cases (unit : ExecUnit) (q : ExecRequest) (s : State) :
    (implemented s.config q.value.tag = false ∧ external unit q s = raise (unimplemented q) s) ∨
    (implemented s.config q.value.tag = true ∧ unit (execInput q s) = .noAnswer ∧ external unit q s = s) ∨
    (∃ a, implemented s.config q.value.tag = true ∧ unit (execInput q s) = .answered a ∧
      external unit q s = retire q a.outcome (applyAnswer a s)) := by
  unfold external
  cases hi : implemented s.config q.value.tag with
  | false => exact .inl ⟨rfl, rfl⟩
  | true =>
    cases hu : unit (execInput q s) with
    | noAnswer => exact .inr (.inl ⟨rfl, rfl, by simp [issue, hu]⟩)
    | answered a => exact .inr (.inr ⟨a, rfl, rfl, by simp [issue, hu]⟩)

theorem external_sameControl (unit : ExecUnit) (q : ExecRequest) (s : State) : SameControl s (external unit q s) := by
  obtain ⟨-, h⟩ | ⟨-, -, h⟩ | ⟨a, -, -, h⟩ := external_cases unit q s <;> rw [h]
  · exact raise_sameControl _ _
  · exact .refl s
  · exact (applyAnswer_sameControl a s).trans (retire_sameControl _ _ _)

/-- Execute is one of three things, by the tag (R125). -/
theorem executeTag_cases (unit : ExecUnit) (q : ExecRequest) (s : State) :
    (q.value.tag = .undefined ∧ executeTag unit q s = raise (undefinedOpcode q.pc q.raw) s) ∨
    (q.value.tag = .nop ∧ executeTag unit q s = retire q .sequential s) ∨
    (q.value.tag ≠ .undefined ∧ q.value.tag ≠ .nop ∧ executeTag unit q s = external unit q s) := by
  unfold executeTag
  cases q.value.tag <;> simp [tagUndefined, tagNop, tagAddImm, tagAddRegister, tagBranch, tagOther]

theorem executeTag_sameControl (unit : ExecUnit) (q : ExecRequest) (s : State) :
    SameControl s (executeTag unit q s) := by
  obtain ⟨-, h⟩ | ⟨-, h⟩ | ⟨-, -, h⟩ := executeTag_cases unit q s <;> rw [h]
  · exact raise_sameControl _ _
  · exact retire_sameControl _ _ _
  · exact external_sameControl unit q s

/-- An instruction's meaning is the arm of its tag. -/
theorem exec_eq_executeTag (i : Instr) (s : State) :
    exec i s = .next (executeTag Config.execUnit (instrRequest i s) s) := by
  cases i <;> rfl

/-- Everything a dispatcher step that goes on can have done: raised at a fetch, or executed what it decoded (R121). -/
theorem dispatcherStep_next {execute : ExecRequest → State → Host.Outcome State Fault Refusal} {s t : State}
    (h : dispatcherStep execute s = .next t) :
    t = raise (misalignedFetch s.regs.pc) s ∧ s.regs.pc[0] = true ∨
    (s.regs.pc[0] = false ∧ s.imageValid = true ∧
      (readHalfword s.mem s.memSize s.regs.pc.toNat = none ∧ t = raise (firstFetchOutOfBounds s.regs.pc) s ∨
       ∃ raw v, readHalfword s.mem s.memSize s.regs.pc.toNat = some raw ∧ lookup s raw = some v ∧
        (lenOf s.config v.tag = 2 ∧ readHalfword s.mem s.memSize (s.regs.pc.toNat + 2) = none ∧
            t = raise (secondFetchOutOfBounds s.regs.pc raw v) s ∨
         ∃ raw2, (lenOf s.config v.tag = 2 ∧ raw2 = readHalfword s.mem s.memSize (s.regs.pc.toNat + 2) ∧
              raw2.isSome = true ∨ lenOf s.config v.tag ≠ 2 ∧ raw2 = none) ∧
            execute { value := v, pc := s.regs.pc, raw, raw2 } s = .next t))) := by
  unfold dispatcherStep at h
  cases hpc : s.regs.pc[0] with
  | true =>
    simp only [hpc, if_true] at h
    exact .inl ⟨(Host.Outcome.next.inj h).symm, rfl⟩
  | false =>
    refine .inr ⟨rfl, ?_⟩
    simp only [hpc, Bool.false_eq_true, if_false] at h
    cases hv : s.imageValid with
    | false => simp [hv] at h
    | true =>
      refine ⟨rfl, ?_⟩
      simp only [hv, Bool.not_true, Bool.false_eq_true, if_false] at h
      cases hr : readHalfword s.mem s.memSize s.regs.pc.toNat with
      | none =>
        simp only [hr] at h
        exact .inl ⟨rfl, (Host.Outcome.next.inj h).symm⟩
      | some raw =>
        simp only [hr] at h
        cases hl : lookup s raw with
        | none => simp [hl] at h
        | some v =>
          simp only [hl] at h
          refine .inr ⟨raw, v, rfl, hl, ?_⟩
          by_cases hlen : lenOf s.config v.tag = 2
          · simp only [hlen, if_true] at h
            cases hr2 : readHalfword s.mem s.memSize (s.regs.pc.toNat + 2) with
            | none =>
              simp only [hr2] at h
              exact .inl ⟨hlen, rfl, (Host.Outcome.next.inj h).symm⟩
            | some raw2 =>
              simp only [hr2] at h
              exact .inr ⟨some raw2, .inl ⟨hlen, rfl, rfl⟩, h⟩
          · simp only [hlen, if_false] at h
            exact .inr ⟨none, .inr ⟨hlen, rfl⟩, h⟩

/-- Everything a host command that is performed can do (R177 to R181, R113). -/
theorem hostCommand_next {c : HostCommand} {s t : State} (h : hostCommand c s = .next t) :
    s.phase ≠ .running ∧
    (c = .initialise ∧ t = hostInitialise s ∨
     (∃ entry image, c = .load entry image ∧ image.length ≤ 2 ^ 32 - 1 ∧ entry < 2 ^ 32 ∧
        t = hostLoad (BitVec.ofNat 32 entry) image s) ∨
     c = .run ∧ s.phase = .loaded ∧ t = hostRun s ∨
     ∃ T r, s.table = some T ∧ t = hostReply r s ∧
        ((∃ i, c = .debugRead i ∧ r = [debugEntry T i]) ∨ c = .dump ∧ r = dumpTable T)) := by
  unfold hostCommand at h
  cases ha : admitted s.phase c with
  | false => simp [ha] at h
  | true =>
    simp only [ha, Bool.not_true, Bool.false_eq_true, if_false] at h
    have hp : s.phase ≠ .running := by
      intro e
      rw [e] at ha
      cases c <;> simp [admitted] at ha
    refine ⟨hp, ?_⟩
    cases c with
    | initialise => exact .inl ⟨rfl, (Host.Outcome.next.inj h).symm⟩
    | load entry image =>
      simp only at h
      split at h
      · cases h
      · next h1 =>
        split at h
        · cases h
        · next h2 =>
          exact .inr (.inl ⟨entry, image, rfl, by omega, by omega, (Host.Outcome.next.inj h).symm⟩)
    | run =>
      simp only [admitted, beq_iff_eq] at ha
      exact .inr (.inr (.inl ⟨rfl, ha, (Host.Outcome.next.inj h).symm⟩))
    | debugRead i =>
      cases hT : s.table with
      | none => simp [hT] at h
      | some T =>
        simp only [hT] at h
        exact .inr (.inr (.inr ⟨T, _, rfl, (Host.Outcome.next.inj h).symm, .inl ⟨i, rfl, rfl⟩⟩))
    | dump =>
      cases hT : s.table with
      | none => simp [hT] at h
      | some T =>
        simp only [hT] at h
        exact .inr (.inr (.inr ⟨T, _, rfl, (Host.Outcome.next.inj h).symm, .inr ⟨rfl, rfl⟩⟩))

/-- A block that is not running rests or performs the host's next command. -/
theorem hostStep_next {s t : State} (h : hostStep s = .next t) :
    s.hostQueue = [] ∧ t = s ∨
    ∃ c rest, s.hostQueue = c :: rest ∧ hostCommand c { s with hostQueue := rest } = .next t := by
  unfold hostStep at h
  cases hq : s.hostQueue with
  | nil =>
    rw [hq] at h
    exact .inl ⟨rfl, (Host.Outcome.next.inj h).symm⟩
  | cons c rest =>
    rw [hq] at h
    exact .inr ⟨c, rest, rfl, h⟩

/-- A transition is the dispatcher's during a run and the host's otherwise (R176). -/
theorem blockStep_eq (execute : ExecRequest → State → Host.Outcome State Fault Refusal) (s : State) :
    blockStep execute s = if s.phase = .running then dispatcherStep execute s else hostStep s := by
  unfold blockStep
  cases s.phase <;> rfl

end Sys2Proof.Machine
end

