-- ==== Sys2Proof/Laws/PerInstr.lean ====
section
/-! SUPPORT. Statements made for every instruction, one lemma per constructor of `Instr`. -/

namespace Sys2Proof.Laws.RowMatch

/-- The match and mask of an instruction's row of spec/opcode_table.json. -/
def row : Instr → Opcode × Opcode
  | .addImm3 _ _ _ => (0x1C00, 0xFE00)
  | .addImm8 _ _ => (0x3000, 0xF800)
  | .nop => (0xBF00, 0xFFFF)
  | .undefined _ => (0x0000, 0x0000)

/-- The encoding of an instruction lies in the match set of its row. -/
def Statement (i : Instr) : Prop := encode i &&& (row i).2 = (row i).1

theorem addImm3 (rd rdn imm : BitVec 3) : Statement (.addImm3 rd rdn imm) := by
  simp only [Statement, row, encode]
  revert rd rdn imm
  decide +kernel

theorem addImm8 (rdn : BitVec 3) (imm : Byte) : Statement (.addImm8 rdn imm) := by
  simp only [Statement, row, encode]
  revert rdn imm
  decide +kernel

theorem nop : Statement .nop := rfl

theorem undefined (raw : Opcode) : Statement (.undefined raw) := by
  simp [Statement, row]

end Sys2Proof.Laws.RowMatch
end

