-- ==== Sys2Proof/Tests/Slice0.lean ====
section
/-! SUPPORT. Tests. The expected results are those of spec/95_test_vectors.md, or written out from the encoding diagrams
of 30_encoding.md, and each names its source. Last come the witnesses: for every statement that has hypotheses, a
concrete state and operands that meet them. -/

namespace Sys2Proof.Tests

open Sys2Proof.Machine

/-! ## Ill-formed terms that the checks refuse (R83, L2-G11) -/

/-- A configuration with tag `A = other 0`, fields `v = other 0` and `w = other 1`, and one encoding of an `A` entry. -/
def oneEncoding (e : EncodingSpec) (fields : List FieldName := [.other 0, .other 1]) : Configuration :=
  { catalog := [(.other 0, [e])], tags := [.undefined, .other 0, .other 1], fieldNames := [(.other 0, fields)]
    twoHalfword := [], implementedTags := [], collisionReport := true }

/-- An operand of the notation `name:width<<shift`. -/
def operand (name width shift : Nat) : OperandSpec := { name := .other name, width, shift, forced := none }

theorem test_reference_wellFormed : Config.reference.wellFormed = true := by decide

theorem test_wf1_refused : (oneEncoding { tag := .other 1, base := 0x4000, operands := [] }).refusals =
    [.catalog .tagAgree 0 0] := by decide

theorem test_wf2_refused :
    (oneEncoding { tag := .other 0, base := 0x4000, operands := [operand 1 3 0] } [.other 0]).refusals =
    [.catalog .fieldExists 0 0] := by decide

theorem test_wf3_refused :
    (oneEncoding { tag := .other 0, base := 0x4000, operands := [operand 0 3 0, operand 0 3 3] }).refusals =
    [.catalog .distinctNames 0 0] := by decide

theorem test_wf4_refused :
    (oneEncoding { tag := .other 0, base := 0x4000, operands := [{ operand 0 17 0 with forced := some 0 }] }).refusals =
    [.catalog .widthRange 0 0] := by decide

theorem test_wf5_refused : (oneEncoding { tag := .other 0, base := 0, operands := [operand 0 9 0] }).refusals =
    [.catalog .fieldFits 0 0] := by decide

theorem test_wf6_refused : (oneEncoding { tag := .other 0, base := 0, operands := [operand 0 8 9] }).refusals =
    [.catalog .inRange 0 0] := by decide

theorem test_wf7_refused :
    (oneEncoding { tag := .other 0, base := 0, operands := [operand 0 4 0, operand 1 4 2] }).refusals =
    [.catalog .noOverlapOperands 0 0] := by decide

theorem test_wf8_refused : (oneEncoding { tag := .other 0, base := 1, operands := [operand 0 1 0] }).refusals =
    [.catalog .noOverlapBase 0 0] := by decide

theorem test_tagSet_refused : ({ Config.reference with tags := [.addImm, .nop] } : Configuration).refusals =
    [.tagSet] := by decide

theorem test_unknownTag_refused : ({ Config.reference with tags := [.undefined, .addImm] } : Configuration).refusals =
    [.unknownTag 1] := by decide

theorem test_fieldList_refused :
    ConfigRefusal.fieldList .addImm ∈
      ({ Config.reference with fieldNames := [(.addImm, [.rd, .rdn])] } : Configuration).refusals := by decide

/-- `0x1C00` is an `AddImm` (L1-1), so it cannot be carried by an `Undefined`. -/
theorem test_undefined_illFormed : (Instr.undefined 0x1C00).wellFormed = false := by decide

/-! ## Decoding words written out from the encoding diagrams -/

/-- L1-1 and L2-M1. -/
theorem test_decode_addImm3 : decode 0b0001110011010101 = .addImm3 5 2 3 := by decide

/-- L1-2 and L2-M1. -/
theorem test_decode_addImm8 : decode 0b0011000000010010 = .addImm8 0 0x12 := by decide

/-- L1-3. -/
theorem test_decode_nop : decode 0b1011111100000000 = .nop := by decide

/-- L1-3 and R70. -/
theorem test_decode_undefined : decode 0b0000000000000001 = .undefined 0x0001 := by decide

theorem test_encode_addImm3 : encode (.addImm3 5 2 3) = 0b0001110011010101 := by decide

theorem test_encode_addImm8 : encode (.addImm8 7 0xFF) = 0x37FF := by decide

theorem test_decode_tooShort : decodeBytes [0x00] = .error .tooShort := rfl

/-! ## Operands, masks and the generator -/

/-- L2-G2. -/
theorem test_range : [operand 0 0 0, operand 0 3 0, { operand 0 5 8 with forced := some 0x99 }].map operandRange =
    [[some 0], [some 0, some 1, some 2, some 3, some 4, some 5, some 6, some 7], [none]] := by decide

/-- L2-G3: the first, second, ninth, 65th and last combination of the `0x1C00` encoding. -/
theorem test_combos_order : [0, 1, 8, 64, 511].map (fun k => (combos Config.addImmEncoding3.operands)[k]?) =
    [some [some 0, some 0, some 0], some [some 0, some 0, some 1], some [some 0, some 1, some 0],
      some [some 1, some 0, some 0], some [some 7, some 7, some 7]] := by decide +kernel

/-- L2-G4. -/
theorem test_masks : [Config.addImmEncoding3, Config.addImmEncoding8, Config.nopEncoding].map
    (fun e => (operandMask e, fixedMask e)) = [(0x01FF, 0xFE00), (0x07FF, 0xF800), (0x0000, 0xFFFF)] := by decide

/-- The two entries of K1 (L2-G5). -/
def k1A : Tag × List EncodingSpec := (.other 0, [{ tag := .other 0, base := 0x4000, operands := [operand 0 8 0] }])

def k1B : Tag × List EncodingSpec := (.other 1, [{ tag := .other 1, base := 0x4042, operands := [] }])

/-- A configuration with `FIELDS(A) = [v]`, `FIELDS(B) = []` and the collision report on. -/
def k1 (catalog : Catalog) : Configuration :=
  { catalog, tags := [.undefined, .other 0, .other 1], fieldNames := [(.other 0, [.other 0])], twoHalfword := []
    implementedTags := [], collisionReport := true }

/-- L2-G5: the later entry wins at `0x4042`, and the report says so. -/
theorem test_k1 : (tableWrites (k1 [k1A, k1B])).length = 257 ∧ collisionReport (k1 [k1A, k1B]) = [(0x4042, .other 0, .other 1)] ∧
    [0x4042, 0x4041, 0x40FF, 0x4100].map (tableGet (buildTable (k1 [k1A, k1B]))) =
      [{ tag := .other 1, fields := [] }, { tag := .other 0, fields := [(.other 0, 0x41)] },
        { tag := .other 0, fields := [(.other 0, 0xFF)] }, undefinedValue] := by decide +kernel

/-- L2-G5 with the entries reversed. -/
theorem test_k1_reversed : collisionReport (k1 [k1B, k1A]) = [(0x4042, .other 1, .other 0)] ∧
    tableGet (buildTable (k1 [k1B, k1A])) 0x4042 = { tag := .other 0, fields := [(.other 0, 0x42)] } := by decide +kernel

/-- L2-G6 (K2): a defaulted operand packs nothing. L2-G7 (K3): a zero-width operand has one value. L2-G8 (K4): a field
that no operand names holds 0. -/
theorem test_k2_k3_k4 :
    [0x4013, 0x4020, 0x4110].map (tableGet (buildTable (oneEncoding { tag := .other 0, base := 0x4010, operands :=
      [operand 0 4 0, { operand 1 5 8 with forced := some 0x99 }] }))) =
        [{ tag := .other 0, fields := [(.other 0, 3), (.other 1, 0x99)] }, undefinedValue, undefinedValue] ∧
    [0x5000, 0x5001, 0x5008].map (tableGet (buildTable (oneEncoding
      { tag := .other 0, base := 0x5000, operands := [operand 0 0 3] } [.other 0]))) =
        [{ tag := .other 0, fields := [(.other 0, 0)] }, undefinedValue, undefinedValue] ∧
    [0x6003, 0x6004].map (tableGet (buildTable (oneEncoding
      { tag := .other 0, base := 0x6000, operands := [operand 0 2 0] }))) =
        [{ tag := .other 0, fields := [(.other 0, 3), (.other 1, 0)] }, undefinedValue] := by decide +kernel

/-- L2-G9 (K5): an `Undefined` encoding withdraws an opcode, and the report lists it. -/
theorem test_k5 :
    let cfg := k1 [k1A, (.undefined, [{ tag := .undefined, base := 0x4080, operands := [] }])]
    [0x4080, 0x407F].map (tableGet (buildTable cfg)) = [undefinedValue, { tag := .other 0, fields := [(.other 0, 0x7F)] }] ∧
      collisionReport cfg = [(0x4080, .other 0, .undefined)] := by decide +kernel

/-- L2-G10 (K6): the total build of an ill-formed catalog. -/
theorem test_k6 : [0x0C, 0x3F, 0x40].map (tableGet (buildTable (oneEncoding { tag := .other 0, base := 0, operands :=
    [operand 0 4 0, operand 1 4 2] }))) =
      [{ tag := .other 0, fields := [(.other 0, 12), (.other 1, 3)] },
        { tag := .other 0, fields := [(.other 0, 15), (.other 1, 15)] }, undefinedValue] := by decide +kernel

/-- L2-G1 and L2-M1: the table built from `C0` at the ends of its ranges. -/
theorem test_table_C0 : [0x1BFF, 0x1DFF, 0x3012, 0x37FF, 0xBF00, 0xBF01].map (tableGet (buildTable Config.reference)) =
    [undefinedValue, (Instr.addImm3 7 7 7).value, (Instr.addImm8 0 0x12).value, (Instr.addImm8 7 0xFF).value,
      Instr.nop.value, undefinedValue] := by
  decide +kernel

/-- L2-M2. -/
theorem test_bus_word : busWord Config.reference (Instr.addImm3 5 2 3).value = some 0x00C0815 := by decide

/-! ## One step -/

/-- A running block with a configuration, an image and a program counter. Its table is the priority decoder's (R115). -/
def running (cfg : Configuration) (image : List Byte) (pc : Word) : State :=
  { State.reset with
    config := cfg, phase := .running, table := some (priorityTable cfg), imageValid := true, memSize := image.length
    mem := memOfBytes 0 image, regs := { State.reset.regs with pc := pc } }

/-- What a test looks at: the `PC`, the phase and the result. -/
def view : Host.Outcome State Fault Refusal → Option (Word × Phase × Option TerminalResult)
  | .next s => some (s.regs.pc, s.phase, s.result)
  | .fault _ => none
  | .refused _ => none

/-- An execution unit with one answer. -/
def always (o : ExecOutcome) : ExecUnit := fun _ => .answered { outcome := o, regWrites := [], stores := [] }

/-- An execution unit that never answers. -/
def silent : ExecUnit := fun _ => .noAnswer

/-- An execution unit that answers `Sequential` to one request, and `Halt` to any other. -/
def expects (q : ExecRequest) : ExecUnit := fun x =>
  .answered { outcome := if x.request = q then .sequential else .halt, regWrites := [], stores := [] }

def noImpl : Configuration := { Config.reference with implementedTags := [] }

/-- The catalog `C2` of L2-D15, whose tag `W` has two halfwords. -/
def c2 : Configuration :=
  { Config.reference with
    catalog := Config.catalogC0 ++ [(.other 0, [{ tag := .other 0, base := 0xF000, operands := [operand 0 8 0, operand 1 3 8] }])]
    tags := [.undefined, .addImm, .nop, .other 0]
    fieldNames := [(.addImm, [.rd, .rdn, .imm]), (.other 0, [.other 0, .other 1])]
    twoHalfword := [.other 0], implementedTags := [.addImm, .other 0] }

def w00 : InstrValue := { tag := .other 0, fields := [(.other 0, 0), (.other 1, 0)] }

/-- L2-D1 and L2-D13. -/
theorem test_nop : view (step (running noImpl [0x00, 0xBF] 0)) = some (2, .running, none) := by decide

/-- L2-D2 and L2-E1: an odd `PC`, whether or not it lies in the image. -/
theorem test_misaligned : view (step (running Config.reference [0x00, 0xBF, 0x00, 0xBF, 0x00] 5)) = some (5, .terminated,
    some { kind := .misalignedFetch, pc := 5, addr := some 5, raw := none, value := none, code := none }) := by decide

/-- L2-D4: the second byte lies outside the image. -/
theorem test_fetch_outOfBounds : view (step (running Config.reference [0x00, 0xBF, 0x00, 0xBF, 0x00] 4)) =
    some (4, .terminated, some { kind := .fetchOutOfBounds, pc := 4, addr := some 4, raw := none, value := none,
                                 code := none }) := by decide

/-- L2-D6. -/
theorem test_undefined : view (step (running Config.reference [0x01, 0x00] 0)) = some (0, .terminated,
    some { kind := .undefinedOpcode, pc := 0, addr := none, raw := some 0x0001, value := none, code := none }) := by
  decide

/-- L2-D7. -/
theorem test_unimplemented : view (step (running noImpl [0x12, 0x30] 0)) = some (0, .terminated,
    some { kind := .unimplemented, pc := 0, addr := none, raw := some 0x3012
           value := some (Instr.addImm8 0 0x12).value, code := none }) := by decide

/-- L2-D8: the request, and the retirement of `Sequential`. -/
theorem test_addImm3_sequential :
    view (stepWith (expects { value := (Instr.addImm3 5 2 3).value, pc := 0x10, raw := 0x1CD5, raw2 := none })
      (running Config.reference (List.replicate 16 0 ++ [0xD5, 0x1C]) 0x10)) = some (0x12, .running, none) := by decide

/-- L2-D9: a jump target is not checked at retirement. -/
theorem test_addImm3_jump : view (stepWith (always (.jump 0x100)) (running Config.reference [0xD5, 0x1C] 0)) =
    some (0x100, .running, none) := by decide

/-- L2-D11. -/
theorem test_execError : view (stepWith (always (.error 7)) (running Config.reference [0xD5, 0x1C] 0)) =
    some (0, .terminated, some { kind := .execError, pc := 0, addr := none, raw := some 0x1CD5
                                 value := some (Instr.addImm3 5 2 3).value, code := some 7 }) := by decide

/-- L2-D12. -/
theorem test_dataOutOfBounds :
    view (stepWith (always (.dataOutOfBounds 0x40)) (running Config.reference [0xD5, 0x1C] 0)) =
    some (0, .terminated, some { kind := .dataOutOfBounds, pc := 0, addr := some 0x40, raw := some 0x1CD5
                                 value := some (Instr.addImm3 5 2 3).value, code := none }) := by decide

/-- L2-D15: the second halfword is sent on undecoded, and `PC` advances by 4. -/
theorem test_twoHalfword :
    view (stepWith (expects { value := w00, pc := 0, raw := 0xF000, raw2 := some 0x8000 })
      (running c2 [0x00, 0xF0, 0x00, 0x80] 0)) = some (4, .running, none) := by decide

/-- L2-D18: the second halfword is fetched before `IMPL` is looked at. -/
theorem test_twoHalfword_outOfBounds :
    view (stepWith (always .sequential) (running { c2 with implementedTags := [] } [0x00, 0xF0] 0)) = some (0, .terminated,
      some { kind := .fetchOutOfBounds, pc := 0, addr := some 2, raw := some 0xF000, value := some w00, code := none }) := by
  decide

/-- The first step of P6: the unit's store is what the next fetch reads. -/
theorem test_selfModifying :
    view (match stepWith (fun _ => .answered { outcome := .sequential, regWrites := [], stores := [(2, 0x00), (3, 0xBF)] })
        (running Config.reference [0x00, 0x1C, 0x01, 0x00] 0) with
      | .next s => step s
      | o => o) = some (4, .running, none) := by decide

/-- The informative note of P2, with the ARMv7-M arithmetic of G2 as the execution unit. -/
theorem test_addImm8_with_adds :
    (match stepWith (fun x => .answered { outcome := .sequential, regWrites := [(.gpr 0, x.regs.gpr[0] + 0x12)], stores := [] })
        { running Config.reference [0x12, 0x30] 0 with
          regs := { State.reset.regs with pc := 0, gpr := Vector.replicate 13 0 } } with
      | .next s => regRead s.regs (.gpr 0)
      | _ => none) = some 0x12 := by decide

/-! ## Host commands (L2-H1, L2-H2) -/

/-- A command in a state, as what the test looks at. -/
def commanded (c : HostCommand) (s : State) : Option (Phase × Bool × Nat × Bool) :=
  match step { s with hostQueue := [c] } with
  | .next t => some (t.phase, t.table.isSome, t.memSize, t.hostQueue.isEmpty)
  | .fault _ => none
  | .refused _ => none

/-- L2-H1, lines 1 and 2. -/
theorem test_run_refused_at_reset : hostCommand .run State.reset = .refused (.commandNotAdmitted .uninitialized) ∧
    hostCommand (.debugRead 0) State.reset = .refused .noTable := ⟨rfl, rfl⟩

/-- L2-H1, line 3. -/
theorem test_load_at_reset : commanded (.load 0 [0x00, 0xBF, 0x01, 0x00]) State.reset =
    some (.uninitialized, false, 4, true) := by decide

/-- L2-H1, line 4, and L2-H2. -/
theorem test_initialise : (hostInitialise (hostLoad 0 [0x00, 0xBF] State.reset)).phase = .loaded ∧
    (hostInitialise State.reset).phase = .uninitialized := by decide

/-- L2-H1, lines 6 and 8: a second `run()` is refused, and DEBUG is not. -/
theorem test_terminated :
    hostCommand .run (raise (undefinedOpcode 2 1) (running Config.reference [] 0)) =
      .refused (.commandNotAdmitted .terminated) ∧
    (match hostCommand (.debugRead 0xBF00) (raise (undefinedOpcode 2 1) (running Config.reference [] 0)) with
      | .next t => t.debugReply
      | _ => none) = some [(0xBF00, Instr.nop.value)] := ⟨rfl, by decide⟩

/-- The first instruction after reset, placed as the host places it. -/
theorem test_withFetchWord : view (step (State.reset.withFetchWord 16 0xBF00)) = some (2, .running, none) := by decide

/-! ## Witnesses: states and operands that meet the hypotheses of the statements -/

/-- A running state that keeps the invariant: its table is the built one. -/
def built (image : List Byte) (pc : Word) : State :=
  { running Config.reference image pc with table := some (buildTable Config.reference) }

theorem built_inv {image : List Byte} {pc : Word} (h : image.length ≤ 2 ^ 32 - 1) : (built image pc).Inv where
  configOk := (by decide : Config.reference.wellFormed = true)
  memOk := memWf_memOfBytes 0 image
  memInImage := fun _ c hc => by simpa [built, running] using (memOfBytes_mem hc).2
  sizeOk := fun _ => h
  tableBuilt := fun T hT => by rw [← Option.some.inj hT]; rfl
  noReport := fun hT => by simp [built] at hT
  ready := fun _ => ⟨rfl, rfl⟩
  notReady := fun hp => by simp [built, running] at hp
  resultIff := by simp [built, running, State.reset, State.create]

theorem fetched_nop : Fetched (running Config.reference [0x00, 0xBF] 0) 0xBF00 Instr.nop.value :=
  ⟨rfl, by decide, rfl, by decide, by decide, by decide⟩

theorem fetched_addImm3 :
    Fetched (running Config.reference [0xD5, 0x1C] 0) 0x1CD5 (Instr.addImm3 5 2 3).value :=
  ⟨rfl, by decide, rfl, by decide, by decide, by decide⟩

theorem fetched_w : Fetched (running c2 [0x00, 0xF0, 0x00, 0x80] 0) 0xF000 w00 :=
  ⟨rfl, by decide, rfl, by decide, by decide, by decide⟩

theorem secondFetched_w : SecondFetched (running c2 [0x00, 0xF0, 0x00, 0x80] 0) w00 (some 0x8000) :=
  .inr ⟨by decide, by decide, by decide⟩

theorem fetched_undefined : Fetched (running noImpl [0x01, 0x00] 0) 0x0001 undefinedValue :=
  ⟨rfl, by decide, rfl, by decide, by decide, by decide⟩

theorem fetched_noImpl : Fetched (running noImpl [0xFF, 0x37] 0) 0x37FF (Instr.addImm8 7 0xFF).value :=
  ⟨rfl, by decide, rfl, by decide, by decide, by decide⟩

/-! ### Encoding and the generator -/

theorem witness_DecodeOfEncode : (Instr.addImm3 7 7 7).wellFormed = true ∧ (Instr.undefined 0xBF01).wellFormed = true := by
  decide

/-- Both clauses: the last write of all, and the write before it, which the last one does not reach; and an opcode just
above the written range. -/
theorem witness_LastWriteWins :
    let ws := tableWrites (k1 [k1A, k1B])
    (ws = ws.take 256 ++ (0x4042, { tag := .other 1, fields := [] }) :: []) ∧
    (ws = ws.take 255 ++ (0x40FF, { tag := .other 0, fields := [(.other 0, 0xFF)] }) :: ws.drop 256 ∧
      ∀ u ∈ ws.drop 256, u.1 ≠ 0x40FF) ∧
    ∀ w ∈ ws, w.1 ≠ 0x4100 := by decide +kernel

theorem checks_pass : ∀ e ∈ encodingsOf Config.catalogC0, widthRange e = true ∧ fieldFits e = true ∧ inRange e = true ∧
    noOverlapOperands e = true ∧ noOverlapBase e = true := by decide

theorem witness_MatchSetOfEncoding :
    [some 255, some 7, none] ∈ combos Config.addImmEncoding8.operands ∧
    ∀ x : Opcode, ¬ (x &&& fixedMask Config.addImmEncoding8 = Config.addImmEncoding8.base ∧
      x &&& fixedMask Config.addImmEncoding3 = Config.addImmEncoding3.base) := by
  refine ⟨by decide +kernel, fun x h => ?_⟩
  have h8 := congrArg (·.getLsbD 13) h.1
  have h3 := congrArg (·.getLsbD 13) h.2
  simp only [BitVec.getLsbD_and, (by decide : (fixedMask Config.addImmEncoding8).getLsbD 13 = true),
    (by decide : (fixedMask Config.addImmEncoding3).getLsbD 13 = true),
    (by decide : Config.addImmEncoding8.base.getLsbD 13 = true),
    (by decide : Config.addImmEncoding3.base.getLsbD 13 = false), Bool.and_true] at h8 h3
  exact absurd (h8.symm.trans h3) (by decide)

/-- The last combination of the `0x3000` encoding, with a defaulted operand; the one write after it is that of `Nop`. -/
theorem witness_RoundTripThroughTable :
    let c := [some 255, some 7, none]
    encodingOk Config.reference .addImm Config.addImmEncoding8 = true ∧ c ∈ combos Config.addImmEncoding8.operands ∧
    tableWrites Config.reference = (tableWrites Config.reference).take 2559 ++
      (comboIndex Config.addImmEncoding8 c, comboValue Config.reference Config.addImmEncoding8 c) ::
        (tableWrites Config.reference).drop 2560 ∧
    ∀ u ∈ (tableWrites Config.reference).drop 2560, u.1 ≠ comboIndex Config.addImmEncoding8 c := by decide +kernel

theorem witness_TableIsPriorityDecoder :
    Config.reference.wellFormed = true ∧
    encodingsOf Config.reference.catalog = [Config.addImmEncoding3] ++ Config.addImmEncoding8 :: [Config.nopEncoding] ∧
    0x37FF &&& fixedMask Config.addImmEncoding8 = Config.addImmEncoding8.base ∧
    (∀ e ∈ [Config.nopEncoding], 0x37FF &&& fixedMask e ≠ e.base) ∧
    ∀ e ∈ encodingsOf Config.reference.catalog, 0x3800 &&& fixedMask e ≠ e.base := by decide

theorem witness_DefaultedOperandPacksNothing : ({ operand 1 5 8 with forced := some 0x99 } : OperandSpec).forced.isSome = true :=
  rfl

theorem witness_ForcedDefaultSelectsForm : (tableGet (buildTable Config.reference) 0x1DFF).tag = .addImm ∧
    (tableGet (buildTable Config.reference) 0x37FF).tag = .addImm := by
  have h := test_table_C0
  simp only [List.map_cons, List.map_nil, List.cons.injEq] at h
  rw [h.2.1, h.2.2.2.1]
  exact ⟨rfl, rfl⟩

theorem witness_BuiltTableIsFull (x : Opcode) :
    tableGet (buildTable (k1 [])) x = tableGet (buildTable { k1 [] with implementedTags := [.addImm] }) x := rfl

/-- Both clauses: the reference configuration is admitted, and the second encoding of a first entry fails WF8. -/
theorem witness_IllFormedCatalogRefused :
    Config.reference.accept = .ok ⟨Config.reference, test_reference_wellFormed⟩ ∧
    let bad : EncodingSpec := { tag := .addImm, base := 1, operands := [operand 0 1 0] }
    let cfg := { Config.reference with catalog := [(Tag.addImm, [Config.addImmEncoding3, bad])] }
    cfg.catalog[0]? = some (Tag.addImm, [Config.addImmEncoding3, bad]) ∧
      [Config.addImmEncoding3, bad][1]? = some bad ∧ CatalogCheck.noOverlapBase.passes cfg .addImm bad = false := by
  exact ⟨by simp [Configuration.accept, test_reference_wellFormed], by decide⟩

theorem witness_BusWordIsInjective : Config.reference.wellFormed = true ∧
    (Instr.addImm8 7 0xFF).value.fields.map (·.1) = fieldsOf Config.reference (Instr.addImm8 7 0xFF).value.tag ∧
    busWord Config.reference (Instr.addImm8 7 0xFF).value = some 0x3FC1FFD := by decide

/-! ### DEBUG, and a block without a table -/

/-- A block whose run has ended. -/
def ended : State := raise (undefinedOpcode 0 1) (running Config.reference [0x01, 0x00] 0)

theorem witness_DebugReadsOnly : ended.phase ≠ .running ∧ ended.table = some (priorityTable Config.reference) :=
  ⟨by decide, rfl⟩

/-- The two clauses that have hypotheses of their own. -/
theorem witness_NoTableNoLookup : (State.reset.table = none ∧ State.reset.phase ≠ .running) ∧
    let s := { running Config.reference [0x00, 0xBF] 0 with table := none }
    s.table = none ∧ s.phase = .running ∧ s.regs.pc.toNat % 2 = 0 ∧ s.imageValid = true ∧ s.regs.pc.toNat + 2 ≤ s.memSize :=
  ⟨⟨rfl, by decide⟩, rfl, rfl, by decide, rfl, by decide⟩

/-! ### Fetch and the step -/

theorem witness_MisalignedFetchEndsRun : (running Config.reference [] 0xFFFFFFFF).phase = .running ∧
    (running Config.reference [] 0xFFFFFFFF).regs.pc.toNat % 2 = 1 := by decide

/-- The first clause at the end of an image and at the largest even `PC`; the second one byte short of four. -/
theorem witness_FetchOutOfBoundsEndsRun :
    (∀ s ∈ [running Config.reference [0x00, 0xBF, 0x00] 2, running Config.reference [] 0xFFFFFFFE],
      s.phase = .running ∧ s.regs.pc.toNat % 2 = 0 ∧ s.imageValid = true ∧ s.memSize < s.regs.pc.toNat + 2) ∧
    Fetched (running c2 [0x00, 0xF0, 0x00] 0) 0xF000 w00 ∧ lenOf c2 w00.tag = 2 ∧
      (running c2 [0x00, 0xF0, 0x00] 0).memSize < 4 :=
  ⟨by decide, ⟨rfl, by decide, rfl, by decide, by decide, by decide⟩, by decide, by decide⟩

theorem witness_StepRunsDecodedInstruction : (Instr.addImm3 5 2 3).wellFormed = true ∧ decode 0x1CD5 = .addImm3 5 2 3 ∧
    Fetched (running Config.reference [0xD5, 0x1C] 0) 0x1CD5 (Instr.addImm3 5 2 3).value :=
  ⟨rfl, by decide, fetched_addImm3⟩

theorem witness_ReferenceBlockRunsOpcodeTable : (built [0x00, 0xBF] 0).Inv ∧ (built [0x00, 0xBF] 0).phase = .running ∧
    (built [0x00, 0xBF] 0).config = Config.reference ∧ (built [0x00, 0xBF] 0).regs.pc.toNat % 2 = 0 ∧
    (built [0x00, 0xBF] 0).regs.pc.toNat + 2 ≤ (built [0x00, 0xBF] 0).memSize :=
  ⟨built_inv (by decide), rfl, rfl, by decide, by decide⟩

/-- For both forms. -/
theorem witness_AddImmIssuesAndRetires :
    implemented (running Config.reference [0xD5, 0x1C] 0).config .addImm = true ∧
    (Instr.addImm3 5 2 3 = .addImm3 5 2 3 ∧ (Instr.addImm3 5 2 3).value =
      { tag := .addImm, fields := [(.rd, (5 : BitVec 3).setWidth 8), (.rdn, (2 : BitVec 3).setWidth 8),
        (.imm, (3 : BitVec 3).setWidth 8)] }) ∧
    (Instr.addImm8 7 0xFF).value =
      { tag := .addImm, fields := [(.rd, 0xFF), (.rdn, (7 : BitVec 3).setWidth 8), (.imm, 0xFF)] } := by decide

theorem witness_AddImmUnimplemented : implemented (running noImpl [0xD5, 0x1C] 0).config .addImm = false := by decide

/-- For both forms, from a memory in canonical form. -/
theorem witness_AddImmFrame : memWf (running Config.reference [0xD5, 0x1C] 0).mem = true ∧
    (∃ t, exec (.addImm3 5 2 3) (running Config.reference [0xD5, 0x1C] 0) = .next t) ∧
    ∃ t, exec (.addImm8 7 0xFF) (running Config.reference [0xD5, 0x1C] 0) = .next t :=
  ⟨by decide, ⟨_, rfl⟩, ⟨_, rfl⟩⟩

/-- The clause of a register that is written, and that of one that is not. -/
theorem witness_AnswerWritesOnlyNamedRegisters :
    let a : ExecAnswer := { outcome := .halt, regWrites := [(.gpr 12, 1), (.link, 2), (.gpr 12, 3)], stores := [] }
    a.regWrites = [(.gpr 12, 1), (.link, 2)] ++ (.gpr 12, 3) :: [] ∧ (regRead State.reset.regs (.gpr 12)).isSome = true ∧
    ∀ p ∈ a.regWrites, p.1 ≠ .stackPointerB := ⟨rfl, rfl, by decide⟩

/-- With one halfword and with two. -/
theorem witness_ImplementedTagStep :
    (Fetched (running Config.reference [0xD5, 0x1C] 0) 0x1CD5 (Instr.addImm3 5 2 3).value ∧
      SecondFetched (running Config.reference [0xD5, 0x1C] 0) (Instr.addImm3 5 2 3).value none ∧
      implemented Config.reference .addImm = true) ∧
    Fetched (running c2 [0x00, 0xF0, 0x00, 0x80] 0) 0xF000 w00 ∧
    SecondFetched (running c2 [0x00, 0xF0, 0x00, 0x80] 0) w00 (some 0x8000) ∧ implemented c2 w00.tag = true ∧
    w00.tag ≠ .undefined ∧ w00.tag ≠ .nop ∧
    ∀ x, always .halt x = .answered { outcome := .halt, regWrites := [], stores := [] } :=
  ⟨⟨fetched_addImm3, .inl ⟨rfl, rfl⟩, by decide⟩, fetched_w, secondFetched_w, by decide, by decide, by decide,
    fun _ => rfl⟩

theorem witness_TwoHalfwordStepConsumesFour :
    Fetched (running c2 [0x00, 0xF0, 0x00, 0x80] 0) 0xF000 w00 ∧
    SecondFetched (running c2 [0x00, 0xF0, 0x00, 0x80] 0) w00 (some 0x8000) ∧ implemented c2 w00.tag = true ∧
    ∀ x, always .sequential x = .answered { outcome := .sequential, regWrites := [], stores := [] } :=
  ⟨fetched_w, secondFetched_w, by decide, fun _ => rfl⟩

theorem witness_UnimplementedTagStep :
    Fetched (running noImpl [0xFF, 0x37] 0) 0x37FF (Instr.addImm8 7 0xFF).value ∧
    SecondFetched (running noImpl [0xFF, 0x37] 0) (Instr.addImm8 7 0xFF).value none ∧
    implemented noImpl (Instr.addImm8 7 0xFF).value.tag = false := ⟨fetched_noImpl, .inl ⟨rfl, rfl⟩, by decide⟩

theorem witness_UndefinedStep : Fetched (running noImpl [0x01, 0x00] 0) 0x0001 undefinedValue ∧
    undefinedValue.tag = .undefined := ⟨fetched_undefined, rfl⟩

theorem witness_NopStep : Fetched (running Config.reference [0x00, 0xBF] 0) 0xBF00 Instr.nop.value ∧
    Instr.nop.value.tag = .nop := ⟨fetched_nop, rfl⟩

theorem witness_NopAtEndThenFetchOutOfBounds : (built [0x00, 0xBF] 0).Inv ∧
    Fetched (built [0x00, 0xBF] 0) 0xBF00 Instr.nop.value ∧
    (built [0x00, 0xBF] 0).regs.pc.toNat + 2 = (built [0x00, 0xBF] 0).memSize := by
  refine ⟨built_inv (by decide), ⟨rfl, by decide, rfl, by decide, by decide, ?_⟩, by decide⟩
  have h := test_table_C0
  simp only [List.map_cons, List.map_nil, List.cons.injEq] at h
  exact congrArg some h.2.2.2.2.1

theorem witness_UnansweredRequestHangs :
    Fetched (running Config.reference [0xD5, 0x1C] 0) 0x1CD5 (Instr.addImm3 5 2 3).value ∧
    SecondFetched (running Config.reference [0xD5, 0x1C] 0) (Instr.addImm3 5 2 3).value none ∧
    implemented Config.reference .addImm = true ∧ ∀ x, silent x = .noAnswer := ⟨fetched_addImm3, .inl ⟨rfl, rfl⟩, by decide, fun _ => rfl⟩

/-- Stores of single bytes, the higher one first and another between, one overwritten later: both bytes of the halfword at
the end of the image are new, and only the second of the halfword before it. Byte 0 is not stored to. -/
theorem witness_StoreSeenByNextFetch :
    let s := running Config.reference [0x11, 0x22, 0x00, 0x00] 0
    let stores : List (Nat × Byte) := [(2, 9), (3, 0xBF), (1, 7), (2, 0x00)]
    memWf s.mem = true ∧ 3 < s.memSize ∧ 2 + 2 ≤ s.memSize ∧ 0 + 2 ≤ s.memSize ∧ (∀ p ∈ stores, p.1 ≠ 0) ∧
    ByteAfterStores s.mem stores 0 0x11 ∧ ByteAfterStores s.mem stores (0 + 1) 7 ∧
    ByteAfterStores s.mem stores 2 0x00 ∧ ByteAfterStores s.mem stores (2 + 1) 0xBF :=
  ⟨by decide, by decide, by decide, by decide, by decide, .inr (by decide),
    .inl ⟨[(2, 9), (3, 0xBF)], [(2, 0x00)], rfl, by decide⟩, .inl ⟨[(2, 9), (3, 0xBF), (1, 7)], [], rfl, by decide⟩,
    .inl ⟨[(2, 9)], [(1, 7), (2, 0x00)], rfl, by decide⟩⟩

theorem witness_AdvanceDoesNotWrap : (built [0x00, 0xBF] 0).Inv ∧ (built [0x00, 0xBF] 0).imageValid = true ∧
    (instrRequest .nop (built [0x00, 0xBF] 0)).pc.toNat + 2 * lenOf Config.reference .nop ≤ 2 :=
  ⟨built_inv (by decide), rfl, by decide⟩

/-! ### The whole machine -/

theorem witness_AtMostOneRequest :
    ∃ t r, (running Config.reference [] 1).phase = .running ∧ (running Config.reference [] 1).result = none ∧
      stepWith (always .halt) (running Config.reference [] 1) = .next t ∧ t.result = some r ∧ r.kind = .misalignedFetch :=
  ⟨_, _, rfl, rfl, rfl, rfl, rfl⟩

/-- The clause of R100 about runs. -/
theorem witness_CollisionReportListsOverwrites : ∃ t, (running Config.reference [] 1).phase = .running ∧
    stepWith (always .halt) (running Config.reference [] 1) = .next t := ⟨_, rfl, rfl⟩

/-- A result the dispatcher raises, and one that a unit's answer gives. -/
theorem witness_TerminalResultsArePrecise :
    (∃ t r, (running Config.reference [] 1).result = none ∧ stepWith (always .halt) (running Config.reference [] 1) = .next t ∧
      t.result = some r ∧ r.kind = .misalignedFetch) ∧
    ∃ t r, stepWith (always .halt) (running Config.reference [0xD5, 0x1C] 0) = .next t ∧
      t.result = some r ∧ r.kind = .halted := ⟨⟨_, _, rfl, rfl, rfl, rfl⟩, ⟨_, _, rfl, rfl, rfl⟩⟩

theorem witness_OnlyExecutionUnitWritesRegisters : ∃ t, stepWith (always .halt) (running Config.reference [0x00, 0xBF] 0) =
    .next t ∧ t.execCount = (running Config.reference [0x00, 0xBF] 0).execCount := ⟨_, rfl, rfl⟩

theorem witness_RunLeavesControlState : ∃ t, (running Config.reference [0x00, 0xBF] 0).phase = .running ∧
    stepWith (always .halt) (running Config.reference [0x00, 0xBF] 0) = .next t := ⟨_, rfl, rfl⟩

theorem witness_ConfigurationIsFixed : ∃ t, step (running Config.reference [0x00, 0xBF] 0) = .next t := ⟨_, rfl⟩

/-- At rest, and with a `load` next. -/
theorem witness_ResultKeptUntilLoad : ended.phase = .terminated ∧ (∃ t, step ended = .next t) ∧
    ∃ t, step { ended with hostQueue := [.load 0 []] } = .next t := ⟨rfl, ⟨_, rfl⟩, ⟨_, rfl⟩⟩

theorem witness_RunningStepAlwaysAnswers : (built [] 1).Inv ∧ (built [] 1).phase = .running := ⟨built_inv (by decide), rfl⟩

theorem witness_InvariantKeptByStep : (built [] 1).Inv ∧ ∃ t, step (built [] 1) = .next t := ⟨built_inv (by decide), ⟨_, rfl⟩⟩

/-! ### Host commands -/

/-- Both clauses. -/
theorem witness_InitialiseRebuildsTable : State.reset.phase ≠ .running ∧
    ∃ t u, hostCommand .initialise State.reset = .next t ∧ hostCommand .initialise t = .next u :=
  ⟨by decide, _, _, rfl, rfl⟩

/-- The three clauses: the shortest image that is too large, the smallest entry that is too wide, and the largest entry
that is not. -/
theorem witness_LoadTakesImage : State.reset.phase ≠ .running ∧
    (List.replicate (2 ^ 32) (0 : Byte)).length > 2 ^ 32 - 1 ∧
    (([0x00, 0xBF] : List Byte).length ≤ 2 ^ 32 - 1 ∧ 2 ^ 32 ≥ 2 ^ 32) ∧ 2 ^ 32 - 1 < 2 ^ 32 ∧
    ([0x00, 0xBF] : List Byte)[1]? = some 0xBF := by
  refine ⟨by decide, ?_, by decide, by decide, by decide⟩
  rw [List.length_replicate]
  decide

theorem witness_CommandsAdmittedByPhase : ({ State.reset with phase := .loaded } : State).phase = .loaded := rfl

/-- Both clauses. -/
theorem witness_IdleBlockPerformsHostCommand : State.reset.phase ≠ .running ∧ State.reset.hostQueue = [] ∧
    ({ State.reset with hostQueue := [.initialise] } : State).hostQueue = .initialise :: [] := ⟨by decide, rfl, rfl⟩

end Sys2Proof.Tests
end

namespace Sys2Proof.Machine

/-! ## The invariant is kept: by each update of the state, by Execute, by the host's commands, and so by every step -/

section InvariantKept
variable {s t : State}

/-! ### Updates of the state -/

/-- The invariant does not speak of the host's commands. -/
theorem State.Inv.withHostQueue (h : s.Inv) (cs : List HostCommand) : State.Inv { s with hostQueue := cs } := { h with }

theorem hostReply_inv (h : s.Inv) (r : List (Opcode × InstrValue)) : (hostReply r s).Inv := { h with }

theorem setPc_inv (h : s.Inv) (pc : Word) : (setPc s pc).Inv := { h with }

/-- Ending a run puts the phase and the result in step (R158). -/
theorem raise_inv (h : s.Inv) (hrun : s.phase = .running) (r : TerminalResult) : (raise r s).Inv :=
  { h with
    ready := fun _ => h.ready (by simp [hrun])
    notReady := by simp
    resultIff := by simp }

/-- An answer's stores keep memory canonical and inside the image. -/
theorem applyAnswer_inv (h : s.Inv) (a : ExecAnswer) : (applyAnswer a s).Inv :=
  { h with
    memOk := memWf_memStores s.memSize a.stores h.memOk
    memInImage := fun hv => memStores_inImage s.memSize a.stores (h.memInImage hv) }

/-! ### Execute and the dispatcher -/

theorem retire_inv (h : s.Inv) (hrun : s.phase = .running) (q : ExecRequest) (o : ExecOutcome) :
    (retire q o s).Inv := by
  obtain ⟨pc, he, -⟩ | ⟨r, he, -⟩ := retire_cases q o s <;> rw [he]
  · exact setPc_inv h pc
  · exact raise_inv h hrun r

theorem external_inv (h : s.Inv) (hrun : s.phase = .running) (unit : ExecUnit) (q : ExecRequest) :
    (external unit q s).Inv := by
  obtain ⟨-, he⟩ | ⟨-, -, he⟩ | ⟨a, -, -, he⟩ := external_cases unit q s <;> rw [he]
  · exact raise_inv h hrun _
  · exact h
  · exact retire_inv (applyAnswer_inv h a) hrun q a.outcome

theorem executeTag_inv (h : s.Inv) (hrun : s.phase = .running) (unit : ExecUnit) (q : ExecRequest) :
    (executeTag unit q s).Inv := by
  obtain ⟨-, he⟩ | ⟨-, he⟩ | ⟨-, -, he⟩ := executeTag_cases unit q s <;> rw [he]
  · exact raise_inv h hrun _
  · exact retire_inv h hrun q .sequential
  · exact external_inv h hrun unit q

/-- Execute as the step has it is the match on the tag, of the request itself or of the decoded instruction's. -/
theorem executeDecoded_exec_eq (q : ExecRequest) (s : State) :
    ∃ q', executeDecoded exec q s = .next (executeTag Config.execUnit q' s) := by
  unfold executeDecoded
  cases instrOfDecoded q.value q.raw with
  | none => exact ⟨q, rfl⟩
  | some i => exact ⟨instrRequest i s, exec_eq_executeTag i s⟩

theorem executeDecoded_inv (h : s.Inv) (hrun : s.phase = .running) {q : ExecRequest}
    (he : executeDecoded exec q s = .next t) : t.Inv := by
  obtain ⟨q', hq⟩ := executeDecoded_exec_eq q s
  obtain rfl := Host.Outcome.next.inj (hq.symm.trans he)
  exact executeTag_inv h hrun Config.execUnit q'

/-- A dispatcher step keeps the invariant for every Execute that keeps it: what it does itself is raise at a fetch. -/
theorem dispatcherStep_inv {execute : ExecRequest → State → Host.Outcome State Fault Refusal} (h : s.Inv)
    (hrun : s.phase = .running) (hexec : ∀ q, execute q s = .next t → t.Inv)
    (hstep : dispatcherStep execute s = .next t) : t.Inv := by
  obtain ⟨rfl, -⟩ | ⟨-, -, ⟨-, rfl⟩ | ⟨raw, v, -, -, ⟨-, -, rfl⟩ | ⟨raw2, -, he⟩⟩⟩ := dispatcherStep_next hstep
  · exact raise_inv h hrun _
  · exact raise_inv h hrun _
  · exact raise_inv h hrun _
  · exact hexec _ he

/-! ### The host's commands -/

theorem State.Inv.result_eq_none (h : s.Inv) (hp : s.phase ≠ .terminated) : s.result = none :=
  Option.not_isSome_iff_eq_none.mp (mt h.resultIff.mp hp)

/-- A build ends `Uninitialized` exactly where an image is loaded already (R178). -/
theorem hostInitialise_inv (h : s.Inv) : (hostInitialise s).Inv := by
  by_cases hload : s.phase = .uninitialized ∧ s.imageValid = true
  · have hres := h.result_eq_none (by simp [hload.1])
    exact { h with
      tableBuilt := fun T hT => by rw [← Option.some.inj hT]; rfl
      noReport := by simp
      ready := fun _ => ⟨rfl, hload.2⟩
      notReady := by simp [hload]
      resultIff := by simp [hload, hres] }
  · exact { h with
      tableBuilt := fun T hT => by rw [← Option.some.inj hT]; rfl
      noReport := by simp
      ready := fun hp => ⟨rfl, (h.ready (by simpa [hload] using hp)).2⟩
      notReady := fun hp => .inr (by
        have hp' : s.phase = .uninitialized := by simpa [hload] using hp
        simpa [hp'] using hload)
      resultIff := by simpa [hload] using h.resultIff }

/-- A load replaces the image whole and drops the result; the phase then says whether there is a table (R180). -/
theorem hostLoad_inv (h : s.Inv) (entry : Word) {image : List Byte} (hlen : image.length ≤ 2 ^ 32 - 1) :
    (hostLoad entry image s).Inv :=
  { h with
    memOk := memWf_memOfBytes 0 image
    memInImage := fun _ c hc => by simpa using (memOfBytes_mem hc).2
    sizeOk := fun _ => hlen
    ready := fun hp => ⟨by simpa [Option.isSome_iff_ne_none] using hp, rfl⟩
    notReady := fun hp => .inl (by simpa using hp)
    resultIff := by cases hT : s.table <;> simp [hT] }

/-- A run starts in `Loaded`, where table and image are present and no result is held (R181). -/
theorem hostRun_inv (h : s.Inv) (hloaded : s.phase = .loaded) : (hostRun s).Inv :=
  { h with
    ready := fun _ => h.ready (by simp [hloaded])
    notReady := by simp
    resultIff := by simp [h.result_eq_none (by simp [hloaded])] }

theorem hostCommand_inv (h : s.Inv) {c : HostCommand} (hc : hostCommand c s = .next t) : t.Inv := by
  obtain ⟨-, ⟨-, rfl⟩ | ⟨entry, image, -, hlen, -, rfl⟩ | ⟨-, hloaded, rfl⟩ | ⟨T, r, -, rfl, -⟩⟩ := hostCommand_next hc
  · exact hostInitialise_inv h
  · exact hostLoad_inv h _ hlen
  · exact hostRun_inv h hloaded
  · exact hostReply_inv h r

theorem hostStep_inv (h : s.Inv) (hstep : hostStep s = .next t) : t.Inv := by
  obtain ⟨-, rfl⟩ | ⟨c, rest, -, hc⟩ := hostStep_next hstep
  · exact h
  · exact hostCommand_inv (h.withHostQueue rest) hc

/-! ### The transition of the block -/

/-- For every Execute that keeps the invariant during a run. -/
theorem blockStep_inv {execute : ExecRequest → State → Host.Outcome State Fault Refusal} (h : s.Inv)
    (hexec : s.phase = .running → ∀ q, execute q s = .next t → t.Inv) (hstep : blockStep execute s = .next t) :
    t.Inv := by
  rw [blockStep_eq] at hstep
  split at hstep
  · next hrun => exact dispatcherStep_inv h hrun (hexec hrun) hstep
  · exact hostStep_inv h hstep

theorem step_inv (h : s.Inv) (hstep : step s = .next t) : t.Inv :=
  blockStep_inv h (fun hrun _ => executeDecoded_inv h hrun) hstep

end InvariantKept

/-- Settles O56: a transition is a dispatcher step of a run or a command of the host, and each keeps the invariant. -/
theorem invariantKeptByStep : Obligations.InvariantKeptByStep := fun _ _ => step_inv

end Sys2Proof.Machine

namespace Sys2Proof.Machine

/-! ## Family 10_state: the built table, reset, and what a transition leaves unchanged -/

/-! ### The built table (R21, R98) -/

@[simp] theorem tableFull_buildTable (cfg : Configuration) : tableFull (buildTable cfg) = true :=
  tableFull_applyWrites (tableWrites cfg) tableFull_emptyTable

/-- Settles O16: the empty table is full and every write keeps it so; full tables are determined by their entries. -/
theorem builtTableIsFull : Obligations.BuiltTableIsFull := fun cfg =>
  ⟨tableFull_buildTable cfg, fun cfg' => table_ext (tableFull_buildTable cfg) (tableFull_buildTable cfg')⟩

/-! ### Reset (R39, R175) -/

/-- Settles O54: reset is the creation of a block, which writes these values. -/
theorem resetValues : Obligations.ResetValues := ⟨rfl, rfl, rfl, rfl, rfl⟩

/-- A block is created with an admitted configuration and neither image nor table nor result: every clause about one
of these has nothing to speak of. -/
theorem State.create_inv (cfg : { c : Configuration // c.wellFormed = true }) : (State.create cfg).Inv where
  configOk := cfg.2
  memOk := rfl
  memInImage := nofun
  sizeOk := nofun
  tableBuilt := nofun
  noReport := fun _ => rfl
  ready := fun h => absurd rfl h
  notReady := fun _ => .inl rfl
  resultIff := ⟨nofun, nofun⟩

/-- Settles O55: a block is created in the invariant, and reset is the creation of one with `C0`. -/
theorem invariantAtReset : Obligations.InvariantAtReset := State.create_inv _

/-! ### The steps of a run -/

section RunSteps
variable {s t : State} {unit : ExecUnit} {execute : ExecRequest → State → Host.Outcome State Fault Refusal}

/-- Everything a step of a run can do to the state: nothing, when a request is not answered; otherwise it writes `PC` or
ends the run, after the effects of at most one answer of the execution unit (R126, R127, R158). -/
def RunStepLeaves (s t : State) : Prop :=
  t = s ∨ ∃ u, (u = s ∨ ∃ a, u = applyAnswer a s) ∧ ((∃ pc, t = setPc u pc) ∨ ∃ r, t = raise r u)

theorem raise_runStepLeaves (r : TerminalResult) (s : State) : RunStepLeaves s (raise r s) :=
  .inr ⟨s, .inl rfl, .inr ⟨r, rfl⟩⟩

theorem retire_runStepLeaves (q : ExecRequest) (o : ExecOutcome) {u : State} (hu : u = s ∨ ∃ a, u = applyAnswer a s) :
    RunStepLeaves s (retire q o u) := by
  obtain ⟨pc, he, -⟩ | ⟨r, he, -⟩ := retire_cases q o u
  · exact .inr ⟨u, hu, .inl ⟨pc, he⟩⟩
  · exact .inr ⟨u, hu, .inr ⟨r, he⟩⟩

theorem executeTag_runStepLeaves (unit : ExecUnit) (q : ExecRequest) (s : State) :
    RunStepLeaves s (executeTag unit q s) := by
  obtain ⟨-, he⟩ | ⟨-, he⟩ | ⟨-, -, he⟩ := executeTag_cases unit q s <;> rw [he]
  · exact raise_runStepLeaves _ s
  · exact retire_runStepLeaves q .sequential (.inl rfl)
  · obtain ⟨-, hx⟩ | ⟨-, -, hx⟩ | ⟨a, -, -, hx⟩ := external_cases unit q s <;> rw [hx]
    · exact raise_runStepLeaves _ s
    · exact .inl rfl
    · exact retire_runStepLeaves q a.outcome (.inr ⟨a, rfl⟩)

/-- For every Execute that does no more: what a dispatcher step does itself is raise at a fetch. -/
theorem blockStep_runStepLeaves (hexec : ∀ q, execute q s = .next t → RunStepLeaves s t) (hrun : s.phase = .running)
    (h : blockStep execute s = .next t) : RunStepLeaves s t := by
  rw [blockStep_eq, if_pos hrun] at h
  obtain ⟨rfl, -⟩ | ⟨-, -, ⟨-, rfl⟩ | ⟨raw, v, -, -, ⟨-, -, rfl⟩ | ⟨raw2, -, he⟩⟩⟩ := dispatcherStep_next h
  · exact raise_runStepLeaves _ s
  · exact raise_runStepLeaves _ s
  · exact raise_runStepLeaves _ s
  · exact hexec _ he

theorem stepWith_runStepLeaves : s.phase = .running → stepWith unit s = .next t → RunStepLeaves s t :=
  blockStep_runStepLeaves fun q he => Host.Outcome.next.inj he ▸ executeTag_runStepLeaves unit q s

theorem step_runStepLeaves : s.phase = .running → step s = .next t → RunStepLeaves s t :=
  blockStep_runStepLeaves fun q he => by
    obtain ⟨q', hq⟩ := executeDecoded_exec_eq q s
    obtain rfl := Host.Outcome.next.inj (hq.symm.trans he)
    exact executeTag_runStepLeaves Config.execUnit q' s

theorem setPc_sameControl (s : State) (pc : Word) : SameControl s (setPc s pc) := ⟨rfl, rfl, rfl, rfl, rfl, rfl, rfl⟩

/-- Of the block's own state, what a step of a run can change is the phase and the result, at the end of the run. -/
theorem RunStepLeaves.control (h : RunStepLeaves s t) :
    SameControl s t ∧ (t.phase = s.phase ∧ t.result = s.result ∨ t.phase = .terminated ∧ t.result.isSome = true) := by
  obtain rfl | ⟨u, hu, ht⟩ := h
  · exact ⟨.refl t, .inl ⟨rfl, rfl⟩⟩
  have hsu : SameControl s u ∧ u.phase = s.phase ∧ u.result = s.result := by
    obtain rfl | ⟨a, rfl⟩ := hu
    · exact ⟨.refl u, rfl, rfl⟩
    · exact ⟨applyAnswer_sameControl a s, rfl, rfl⟩
  obtain ⟨hcontrol, hphase, hresult⟩ := hsu
  obtain ⟨pc, rfl⟩ | ⟨r, rfl⟩ := ht
  · exact ⟨hcontrol.trans (setPc_sameControl u pc), .inl ⟨hphase, hresult⟩⟩
  · exact ⟨hcontrol.trans (raise_sameControl r u), .inr ⟨rfl, rfl⟩⟩

/-- An answer counts (log entry 1), so a step of a run that leaves the count as it was has written only `PC`. -/
theorem RunStepLeaves.regs_mem_of_execCount (h : RunStepLeaves s t) (hcount : t.execCount = s.execCount) :
    t.regs = { s.regs with pc := t.regs.pc } ∧ t.mem = s.mem := by
  obtain rfl | ⟨u, rfl | ⟨a, rfl⟩, ht⟩ := h
  · exact ⟨rfl, rfl⟩
  · obtain ⟨pc, rfl⟩ | ⟨r, rfl⟩ := ht <;> exact ⟨rfl, rfl⟩
  · obtain ⟨pc, rfl⟩ | ⟨r, rfl⟩ := ht <;> simp at hcount

end RunSteps

/-- Settles O46: what a step of a run can do keeps the control state, and the phase until it ends the run. -/
theorem runLeavesControlState : Obligations.RunLeavesControlState := fun unit s t hrun h => by
  simpa only [hrun] using (stepWith_runStepLeaves hrun h).control

/-! ### The host's commands -/

section HostSteps
variable {s t : State}

theorem hostCommand_config {c : HostCommand} (h : hostCommand c s = .next t) : t.config = s.config := by
  obtain ⟨-, ⟨-, rfl⟩ | ⟨entry, image, -, -, -, rfl⟩ | ⟨-, -, rfl⟩ | ⟨T, r, -, rfl, -⟩⟩ := hostCommand_next h <;> rfl

/-- Of the registers a host command writes `PC` alone: `load` sets it (R180). -/
theorem hostCommand_regs {c : HostCommand} (h : hostCommand c s = .next t) :
    t.regs = { s.regs with pc := t.regs.pc } := by
  obtain ⟨-, ⟨-, rfl⟩ | ⟨entry, image, -, -, -, rfl⟩ | ⟨-, -, rfl⟩ | ⟨T, r, -, rfl, -⟩⟩ := hostCommand_next h <;> rfl

theorem hostStep_config (h : hostStep s = .next t) : t.config = s.config := by
  obtain ⟨-, rfl⟩ | ⟨c, rest, -, hc⟩ := hostStep_next h
  · rfl
  · exact (hostCommand_config hc :)

theorem hostStep_regs (h : hostStep s = .next t) : t.regs = { s.regs with pc := t.regs.pc } := by
  obtain ⟨-, rfl⟩ | ⟨c, rest, -, hc⟩ := hostStep_next h
  · rfl
  · exact (hostCommand_regs hc :)

end HostSteps

/-! ### The transition of the block -/

/-- Settles O45: during a run an answer would have been counted; outside one, of the registers the host's `load` writes
only `PC`. -/
theorem onlyExecutionUnitWritesRegisters : Obligations.OnlyExecutionUnitWritesRegisters := fun unit s t h hcount => by
  by_cases hrun : s.phase = .running
  · obtain ⟨hregs, hmem⟩ := (stepWith_runStepLeaves hrun h).regs_mem_of_execCount hcount
    exact ⟨hregs, fun _ => hmem⟩
  · rw [stepWith, blockStep_eq, if_neg hrun] at h
    exact ⟨hostStep_regs h, fun hrun' => absurd hrun' hrun⟩

/-- Settles O47: neither what a step of a run can do nor a host command writes the configuration. -/
theorem configurationIsFixed : Obligations.ConfigurationIsFixed := fun s t h => by
  by_cases hrun : s.phase = .running
  · exact (step_runStepLeaves hrun h).control.1.config
  · rw [step, blockStep_eq, if_neg hrun] at h
    exact hostStep_config h

end Sys2Proof.Machine

namespace Sys2Proof.Machine

/-! ## Family 20_memory: the halfword fetch -/

/-- R42, R44: the byte at the lower address is the low half. -/
theorem halfwordLE_eq_append (low high : Byte) : halfwordLE low high = high ++ low := by
  calc halfwordLE low high
    _ = high.setWidth 16 <<< 8 ||| low.setWidth 16 := BitVec.or_comm ..
    _ = (high ++ low).setWidth 16 := BitVec.setWidth_append_eq_shiftLeft_setWidth_or.symm
    _ = high ++ low := BitVec.setWidth_eq _

/-- A halfword is determined by its two bytes. -/
theorem halfwordLE_eq_iff (low high : Byte) (raw : Opcode) :
    halfwordLE low high = raw ↔ raw.extractLsb' 0 8 = low ∧ raw.extractLsb' 8 8 = high := by
  rw [halfwordLE_eq_append]
  constructor
  · rintro rfl
    exact ⟨BitVec.extractLsb'_append_eq_right, BitVec.extractLsb'_append_eq_left⟩
  · rintro ⟨rfl, rfl⟩
    exact (BitVec.extractLsb'_append_extractLsb'_eq_extractLsb' rfl).trans BitVec.extractLsb'_eq_self

section Fetch
variable (m : Memory) (size addr : Nat)

/-- R42, R43: the bound, in naturals. -/
theorem readHalfword_eq_none_iff : readHalfword m size addr = none ↔ size < addr + 2 := by
  simp [readHalfword]

theorem readHalfword_eq_some_iff (raw : Opcode) : readHalfword m size addr = some raw ↔
    addr + 2 ≤ size ∧ halfwordLE (memRead m addr) (memRead m (addr + 1)) = raw := by
  simp [readHalfword]

end Fetch

/-- Settles O4: a fetch that succeeds reads the halfword of its two bytes, and they determine it. -/
theorem fetchIsLittleEndianAndBounded : Obligations.FetchIsLittleEndianAndBounded := fun m size a =>
  ⟨readHalfword_eq_none_iff m size a, fun raw => by rw [readHalfword_eq_some_iff, halfwordLE_eq_iff]⟩

end Sys2Proof.Machine

namespace Sys2Proof.Machine

/-! ## Family 30_encoding: combinations and the table they build, the reference opcode map, bus words -/

/-! ### The bits of one operand (R59, R60, R87) -/

section Operands
variable {op : OperandSpec} {c c' : Option Nat}

/-- The bits of an opcode that one operand packs. -/
def operandBits (op : OperandSpec) (c : Option Nat) : Opcode := BitVec.ofNat 16 (packOperand op c)

theorem mem_operandRange_of_forced {d : Byte} (hf : op.forced = some d) : c ∈ operandRange op ↔ c = none := by
  simp [operandRange, hf]

theorem mem_operandRange_of_packed (hf : op.forced = none) :
    c ∈ operandRange op ↔ ∃ n < 2 ^ op.width, c = some n := by
  simp [operandRange, hf, eq_comm]

theorem unpackOperand_mem_operandRange (op : OperandSpec) (x : Opcode) : unpackOperand op x ∈ operandRange op := by
  cases hf : op.forced with
  | some d => simp [mem_operandRange_of_forced hf, unpackOperand, hf]
  | none => simp [mem_operandRange_of_packed hf, unpackOperand, hf, lowMask, Nat.mod_lt]

/-- Packing what was extracted keeps the opcode's bits under the operand's mask. -/
theorem operandBits_unpackOperand (op : OperandSpec) (x : Opcode) :
    operandBits op (unpackOperand op x) = x &&& opMask op := by
  cases h : op.forced with
  | some d => simp [operandBits, packOperand, opMask, h]
  | none =>
    have hshift : (x.toNat >>> op.shift &&& lowMask op.width) <<< op.shift =
        x.toNat &&& lowMask op.width <<< op.shift := by
      apply Nat.eq_of_testBit_eq
      intro i
      by_cases hi : op.shift ≤ i <;> simp [hi]
    simp [operandBits, packOperand, unpackOperand, opMask, h, hshift, BitVec.ofNat_and]

theorem operandBits_and_opMask (h : c ∈ operandRange op) : operandBits op c &&& opMask op = operandBits op c := by
  cases hf : op.forced with
  | some d => simp [operandBits, packOperand, hf]
  | none =>
    obtain ⟨n, hn, rfl⟩ := (mem_operandRange_of_packed hf).mp h
    simp [operandBits, packOperand, opMask, hf, ← BitVec.ofNat_and, ← Nat.shiftLeft_and_distrib, lowMask,
      Nat.mod_eq_of_lt hn]

/-- WF6 keeps every bit of the value inside the opcode. -/
theorem operandBits_inj (hin : op.forced = none → op.width = 0 ∨ op.width + op.shift ≤ 16)
    (hc : c ∈ operandRange op) (hc' : c' ∈ operandRange op) (h : operandBits op c = operandBits op c') : c = c' := by
  cases hf : op.forced with
  | some d => rw [(mem_operandRange_of_forced hf).mp hc, (mem_operandRange_of_forced hf).mp hc']
  | none =>
    obtain ⟨n, hn, rfl⟩ := (mem_operandRange_of_packed hf).mp hc
    obtain ⟨n', hn', rfl⟩ := (mem_operandRange_of_packed hf).mp hc'
    obtain hwidth | hwidth := hin hf
    · simp only [hwidth, pow_zero, Nat.lt_one_iff] at hn hn'
      rw [hn, hn']
    · have hlt : ∀ k < 2 ^ op.width, k * 2 ^ op.shift < 2 ^ 16 := fun k hk => by
        calc k * 2 ^ op.shift
          _ < 2 ^ op.width * 2 ^ op.shift := Nat.mul_lt_mul_of_pos_right hk (by positivity)
          _ = 2 ^ (op.width + op.shift) := (pow_add 2 op.width op.shift).symm
          _ ≤ 2 ^ 16 := Nat.pow_le_pow_right (by decide) hwidth
      have hnat := congrArg BitVec.toNat h
      simp only [operandBits, packOperand, hf, Nat.shiftLeft_eq, BitVec.toNat_ofNat, Nat.mod_eq_of_lt (hlt n hn),
        Nat.mod_eq_of_lt (hlt n' hn')] at hnat
      rw [Nat.eq_of_mul_eq_mul_right (by positivity) hnat]

theorem unpackOperand_eq_some (hf : op.forced = none) (x : Opcode) :
    unpackOperand op x = some (x.extractLsb' op.shift op.width).toNat := by
  simp [unpackOperand, hf, lowMask, BitVec.extractLsb'_toNat]

theorem unpackOperand_eq_none {d : Byte} (hf : op.forced = some d) (x : Opcode) : unpackOperand op x = none := by
  simp [unpackOperand, hf]

theorem operandBits_toNat (hf : op.forced = none) {w : Nat} (v : BitVec w) :
    operandBits op (some v.toNat) = v.setWidth 16 <<< op.shift := by
  apply BitVec.eq_of_toNat_eq
  simp [operandBits, packOperand, hf, Nat.shiftLeft_eq]

theorem operandBits_none (op : OperandSpec) : operandBits op none = 0 := by
  cases hf : op.forced <;> simp [operandBits, packOperand, hf]

/-- The field is zero-extended, never sign-extended (R60, R89). -/
theorem fieldValue_toNat (hf : op.forced = none) {w : Nat} (v : BitVec w) :
    fieldValue op (some v.toNat) = v.setWidth 8 := by
  simp [fieldValue, hf]

theorem fieldValue_of_forced {d : Byte} (hf : op.forced = some d) : fieldValue op c = d := by
  simp [fieldValue, hf]

end Operands

/-! ### Combinations (R86, R87, R96) -/

/-- The bits that a combination of operands packs. -/
def packOperands : List OperandSpec → List (Option Nat) → Opcode
  | op :: ops, c :: cs => operandBits op c ||| packOperands ops cs
  | _, _ => 0

/-- The bits that operands can pack. -/
def operandsMask : List OperandSpec → Opcode
  | [] => 0
  | op :: ops => opMask op ||| operandsMask ops

theorem comboIndex_eq (e : EncodingSpec) (c : List (Option Nat)) :
    comboIndex e c = e.base ||| packOperands e.operands c := by
  have key : ∀ (ops : List OperandSpec) (c : List (Option Nat)) (n : Nat),
      BitVec.ofNat 16 ((ops.zip c).foldl (fun acc p => acc ||| packOperand p.1 p.2) n) =
        BitVec.ofNat 16 n ||| packOperands ops c := by
    intro ops
    induction ops with
    | nil => simp [packOperands]
    | cons op ops ih =>
      intro c n
      cases c with
      | nil => simp [packOperands]
      | cons c cs => simp [packOperands, operandBits, ih, BitVec.ofNat_or, BitVec.or_assoc]
  rw [comboIndex, key, BitVec.ofNat_toNat, BitVec.setWidth_eq]

theorem operandMask_eq (e : EncodingSpec) : operandMask e = operandsMask e.operands := by
  have key : ∀ (ops : List OperandSpec) (m : Opcode),
      ops.foldl (fun m op => m ||| opMask op) m = m ||| operandsMask ops := by
    intro ops
    induction ops with
    | nil => simp [operandsMask]
    | cons op ops ih => simp [operandsMask, ih, BitVec.or_assoc]
  rw [operandMask, key]
  exact BitVec.zero_or

theorem cons_mem_combos {op : OperandSpec} {ops : List OperandSpec} {cs : List (Option Nat)} :
    cs ∈ combos (op :: ops) ↔ ∃ c ∈ operandRange op, ∃ cs' ∈ combos ops, cs = c :: cs' := by
  simp [combos, eq_comm]

theorem map_unpackOperand_mem_combos (ops : List OperandSpec) (x : Opcode) :
    ops.map (unpackOperand · x) ∈ combos ops := by
  induction ops with
  | nil => simp [combos]
  | cons op ops ih => exact cons_mem_combos.mpr ⟨_, unpackOperand_mem_operandRange op x, _, ih, rfl⟩

theorem packOperands_map_unpackOperand (ops : List OperandSpec) (x : Opcode) :
    packOperands ops (ops.map (unpackOperand · x)) = x &&& operandsMask ops := by
  induction ops with
  | nil => simp [packOperands, operandsMask]
  | cons op ops ih => simp [packOperands, operandsMask, operandBits_unpackOperand, ih, BitVec.and_or_distrib_left]

/-- A combination packs no bit outside its operands' masks. -/
theorem packOperands_and_eq_zero {ops : List OperandSpec} {m : Opcode} {cs : List (Option Nat)}
    (hm : ∀ op ∈ ops, m &&& opMask op = 0) (hcs : cs ∈ combos ops) : packOperands ops cs &&& m = 0 := by
  induction ops generalizing cs with
  | nil => simp [packOperands]
  | cons op ops ih =>
    obtain ⟨c, hc, cs', hcs', rfl⟩ := cons_mem_combos.mp hcs
    simp only [List.mem_cons, forall_eq_or_imp] at hm
    have hhead : operandBits op c &&& m = 0 := by
      rw [← operandBits_and_opMask hc, BitVec.and_assoc, BitVec.and_comm (opMask op), hm.1]
      exact BitVec.and_zero
    rw [packOperands, BitVec.and_or_distrib_right, hhead, ih hm.2 hcs']
    exact BitVec.or_zero

theorem and_opMask_eq_zero {ops : List OperandSpec} {m : Opcode} (h : m &&& operandsMask ops = 0) :
    ∀ op ∈ ops, m &&& opMask op = 0 := by
  induction ops with
  | nil => simp
  | cons op ops ih =>
    rw [operandsMask, BitVec.and_or_distrib_left] at h
    obtain ⟨hop, hops⟩ := BitVec.or_eq_zero_iff.mp h
    simpa using ⟨hop, ih hops⟩

/-- Extraction gives a packed combination back when no operand's bits meet another's, nor those of the rest `b` of the
opcode. -/
theorem map_unpackOperand_packOperands {ops : List OperandSpec} {cs : List (Option Nat)} {b : Opcode}
    (hin : ∀ op ∈ ops, op.forced = none → op.width = 0 ∨ op.width + op.shift ≤ 16)
    (hdisj : ops.Pairwise fun op op' => opMask op &&& opMask op' = 0) (hb : ∀ op ∈ ops, b &&& opMask op = 0)
    (hcs : cs ∈ combos ops) : ops.map (unpackOperand · (b ||| packOperands ops cs)) = cs := by
  induction ops generalizing cs b with
  | nil => simpa [combos, eq_comm] using hcs
  | cons op ops ih =>
    obtain ⟨c, hc, cs', hcs', rfl⟩ := cons_mem_combos.mp hcs
    simp only [List.mem_cons, forall_eq_or_imp] at hin hb
    obtain ⟨hop, hops⟩ := List.pairwise_cons.mp hdisj
    have hhead : unpackOperand op (b ||| packOperands (op :: ops) (c :: cs')) = c := by
      refine operandBits_inj hin.1 (unpackOperand_mem_operandRange op _) hc ?_
      rw [operandBits_unpackOperand, packOperands, BitVec.and_or_distrib_right, BitVec.and_or_distrib_right, hb.1,
        operandBits_and_opMask hc, packOperands_and_eq_zero hop hcs']
      simp
    have hrest : ∀ op' ∈ ops, (b ||| operandBits op c) &&& opMask op' = 0 := fun op' hop' => by
      rw [BitVec.and_or_distrib_right, hb.2 op' hop', ← operandBits_and_opMask hc, BitVec.and_assoc, hop op' hop']
      simp
    have htail := ih hin.2 hops hrest hcs'
    rw [BitVec.or_assoc] at htail
    rw [List.map_cons, hhead]
    exact congrArg (c :: ·) htail

theorem inMatchSet_iff {e : EncodingSpec} {x : Opcode} : inMatchSet e x = true ↔ x &&& fixedMask e = e.base :=
  beq_iff_eq

/-- What WF6 to WF8 say of the bits of an encoding (R83). -/
structure LayoutOk (e : EncodingSpec) : Prop where
  inRange : inRange e = true
  noOverlapOperands : noOverlapOperands e = true
  noOverlapBase : noOverlapBase e = true

section Encoding
variable {e : EncodingSpec} {c : List (Option Nat)} {x : Opcode}

theorem LayoutOk.operand_inRange (h : LayoutOk e) :
    ∀ op ∈ e.operands, op.forced = none → op.width = 0 ∨ op.width + op.shift ≤ 16 := fun op hop hf => by
  have := h.inRange
  simp only [Machine.inRange, nonDefaulted, List.all_eq_true, List.mem_filter] at this
  simpa using this op ⟨hop, by simp [hf]⟩

/-- A defaulted operand has no bits (R59), so WF7 need not speak of it. -/
theorem LayoutOk.operands_pairwise (h : LayoutOk e) :
    e.operands.Pairwise fun op op' => opMask op &&& opMask op' = 0 := by
  have := of_decide_eq_true h.noOverlapOperands
  rw [nonDefaulted, List.pairwise_filter] at this
  refine this.imp fun {op op'} himp => ?_
  cases hf : op.forced with
  | some d => simp [opMask, hf]
  | none =>
    cases hf' : op'.forced with
    | some d => simp [opMask, hf']
    | none => exact himp (by simp [hf]) (by simp [hf'])

theorem LayoutOk.base_and_opMask (h : LayoutOk e) : ∀ op ∈ e.operands, e.base &&& opMask op = 0 :=
  and_opMask_eq_zero (by rw [← operandMask_eq]; exact beq_iff_eq.mp h.noOverlapBase)

theorem unpackCombo_mem_combos (e : EncodingSpec) (x : Opcode) : unpackCombo e x ∈ combos e.operands :=
  map_unpackOperand_mem_combos e.operands x

/-- An opcode is its bits outside a mask and its bits under it. -/
theorem and_not_or_and (x m : Opcode) : x &&& ~~~m ||| x &&& m = x := by
  rw [← BitVec.and_or_distrib_left, BitVec.or_comm, BitVec.or_not_self, BitVec.and_allOnes]

/-- R96(b), the match set is reached. -/
theorem comboIndex_unpackCombo (h : inMatchSet e x = true) : comboIndex e (unpackCombo e x) = x := by
  rw [comboIndex_eq, unpackCombo, packOperands_map_unpackOperand, ← operandMask_eq, ← inMatchSet_iff.mp h, fixedMask,
    and_not_or_and]

/-- R96(b), only the match set is reached. -/
theorem inMatchSet_comboIndex (h : LayoutOk e) (hc : c ∈ combos e.operands) : inMatchSet e (comboIndex e c) = true := by
  have hpack : packOperands e.operands c &&& fixedMask e = 0 := by
    refine packOperands_and_eq_zero (and_opMask_eq_zero ?_) hc
    rw [fixedMask, operandMask_eq, BitVec.and_comm]
    exact BitVec.and_not_self _
  have hbase : e.base &&& fixedMask e = e.base := by
    have := and_not_or_and e.base (operandMask e)
    rw [beq_iff_eq.mp h.noOverlapBase] at this
    exact BitVec.or_zero.symm.trans this
  rw [inMatchSet_iff, comboIndex_eq, BitVec.and_or_distrib_right, hpack, hbase]
  exact BitVec.or_zero

/-- R96(c). -/
theorem unpackCombo_comboIndex (h : LayoutOk e) (hc : c ∈ combos e.operands) : unpackCombo e (comboIndex e c) = c := by
  rw [comboIndex_eq]
  exact map_unpackOperand_packOperands h.operand_inRange h.operands_pairwise h.base_and_opMask hc

end Encoding

/-! ### The built table is the priority decoder's (R94, R115) -/

section Table
variable {e : EncodingSpec} {x : Opcode}

/-- Writes that agree at an index decide its entry, where there is one. -/
theorem tableGet_applyWrites_of_mem (T : DecodeTable) {ws : List TableWrite} {v : InstrValue}
    (hval : ∀ w ∈ ws, w.1 = x → w.2 = v) (hmem : ∃ w ∈ ws, w.1 = x) : tableGet (applyWrites T ws) x = v := by
  induction ws generalizing T with
  | nil => simp at hmem
  | cons w ws ih =>
    simp only [List.mem_cons, forall_eq_or_imp] at hval
    rw [applyWrites_cons]
    by_cases hlater : ∃ u ∈ ws, u.1 = x
    · exact ih _ hval.2 hlater
    · have hw : w.1 = x := by simpa [hlater] using hmem
      rw [tableGet_applyWrites_other _ _ (fun u hu hux => hlater ⟨u, hu, hux⟩), hw, tableGet_tableSet_same, hval.1 hw]

/-- The writes of one encoding set the entries of its match set to the values extracted there (R92, R96). -/
theorem tableGet_encodingWrites (h : LayoutOk e) (cfg : Configuration) (T : DecodeTable) (x : Opcode) :
    tableGet (applyWrites T (encodingWrites cfg e)) x =
      if inMatchSet e x then comboValue cfg e (unpackCombo e x) else tableGet T x := by
  split
  · next hx =>
    refine tableGet_applyWrites_of_mem T (fun w hw hwx => ?_) ⟨_, List.mem_map_of_mem (unpackCombo_mem_combos e x),
      comboIndex_unpackCombo hx⟩
    obtain ⟨c, hc, rfl⟩ := List.mem_map.mp hw
    rw [← hwx, unpackCombo_comboIndex h hc]
  · next hx =>
    refine tableGet_applyWrites_other T _ fun w hw hwx => hx ?_
    obtain ⟨c, hc, rfl⟩ := List.mem_map.mp hw
    exact hwx ▸ inMatchSet_comboIndex h hc

/-- R115, for a catalog whose encodings pass WF6 to WF8. -/
theorem tableGet_buildTable {cfg : Configuration} (h : ∀ e ∈ encodingsOf cfg.catalog, LayoutOk e) (x : Opcode) :
    tableGet (buildTable cfg) x = priorityDecode cfg x := by
  have key : ∀ (es : List EncodingSpec) (T : DecodeTable), (∀ e ∈ es, LayoutOk e) →
      tableGet (applyWrites T (es.flatMap (encodingWrites cfg))) x =
        es.foldl (fun v e => if inMatchSet e x then comboValue cfg e (unpackCombo e x) else v) (tableGet T x) := by
    intro es
    induction es with
    | nil => simp
    | cons e es ih =>
      intro T hes
      simp only [List.mem_cons, forall_eq_or_imp] at hes
      rw [List.flatMap_cons, applyWrites_append, ih _ hes.2, tableGet_encodingWrites hes.1, List.foldl_cons]
  rw [buildTable, tableWrites, key _ _ h, tableGet_emptyTable, priorityDecode]

end Table

/-! ### The opcode table's decoder and encoder, as the encodings of `C0` (R63 to R67) -/

section OpcodeTable
open Config
variable {x : Opcode}

theorem addImmEncoding3_layoutOk : LayoutOk addImmEncoding3 := ⟨by decide, by decide, by decide⟩
theorem addImmEncoding8_layoutOk : LayoutOk addImmEncoding8 := ⟨by decide, by decide, by decide⟩
theorem nopEncoding_layoutOk : LayoutOk nopEncoding := ⟨by decide, by decide, by decide⟩

/-- Without operands an encoding matches its base alone (R96). -/
theorem inMatchSet_iff_eq_base {e : EncodingSpec} (h : e.operands = []) : inMatchSet e x = true ↔ x = e.base := by
  rw [inMatchSet_iff, fixedMask, operandMask, h]
  exact Eq.congr_left BitVec.and_allOnes

theorem inMatchSet_addImmEncoding3 : inMatchSet addImmEncoding3 x = true ↔ x &&& 0xFE00 = 0x1C00 := inMatchSet_iff
theorem inMatchSet_addImmEncoding8 : inMatchSet addImmEncoding8 x = true ↔ x &&& 0xF800 = 0x3000 := inMatchSet_iff
theorem inMatchSet_nopEncoding : inMatchSet nopEncoding x = true ↔ x = 0xBF00 := inMatchSet_iff_eq_base rfl

theorem decode_of_addImm8_match (h : x &&& 0xF800 = 0x3000) :
    decode x = .addImm8 (x.extractLsb' 8 3) (x.extractLsb' 0 8) := by
  have hnop : x ≠ 0xBF00 := by
    rintro rfl
    exact absurd h (by decide)
  rw [decode, if_neg hnop, if_pos h]

theorem decode_of_addImm3_match (h : x &&& 0xFE00 = 0x1C00) :
    decode x = .addImm3 (x.extractLsb' 0 3) (x.extractLsb' 3 3) (x.extractLsb' 6 3) := by
  have hnop : x ≠ 0xBF00 := by
    rintro rfl
    exact absurd h (by decide)
  have h8 : x &&& 0xF800 ≠ 0x3000 := by
    have : x &&& 0xF800 = 0x1C00 &&& 0xF800 := by rw [← h, BitVec.and_assoc]; rfl
    rw [this]
    decide
  rw [decode, if_neg hnop, if_neg h8, if_pos h]

theorem wellFormed_undefined_iff : (Instr.undefined x).wellFormed = true ↔
    x ≠ 0xBF00 ∧ x &&& 0xF800 ≠ 0x3000 ∧ x &&& 0xFE00 ≠ 0x1C00 := by
  simp only [Instr.wellFormed, Bool.and_eq_true, bne_iff_ne]
  tauto

theorem decode_of_undefined_wellFormed (h : (Instr.undefined x).wellFormed = true) : decode x = .undefined x := by
  obtain ⟨hnop, h8, h3⟩ := wellFormed_undefined_iff.mp h
  rw [decode, if_neg hnop, if_neg h8, if_neg h3]

theorem decode_wellFormed (x : Opcode) : (decode x).wellFormed = true := by
  unfold decode
  split_ifs with hnop h8 h3
  · rfl
  · rfl
  · rfl
  · exact wellFormed_undefined_iff.mpr ⟨hnop, h8, h3⟩

/-- The encoding that an instruction is of: one of `C0`, and for an `Undefined` its opcode, without operands. -/
def instrEncoding : Instr → EncodingSpec
  | .addImm3 _ _ _ => addImmEncoding3
  | .addImm8 _ _ => addImmEncoding8
  | .nop => nopEncoding
  | .undefined raw => { tag := .undefined, base := raw, operands := [] }

/-- The combination of that encoding's operands that an instruction is. -/
def instrCombo : Instr → List (Option Nat)
  | .addImm3 rd rdn imm => [some rd.toNat, some rdn.toNat, some imm.toNat]
  | .addImm8 rdn imm => [some imm.toNat, some rdn.toNat, none]
  | .nop => []
  | .undefined _ => []

theorem instrEncoding_layoutOk (i : Instr) : LayoutOk (instrEncoding i) := by
  cases i with
  | addImm3 rd rdn imm => exact addImmEncoding3_layoutOk
  | addImm8 rdn imm => exact addImmEncoding8_layoutOk
  | nop => exact nopEncoding_layoutOk
  | undefined raw => exact ⟨rfl, rfl, by simp [instrEncoding, noOverlapBase, operandMask]⟩

theorem instrCombo_mem_combos (i : Instr) : instrCombo i ∈ combos (instrEncoding i).operands := by
  cases i with
  | addImm3 rd rdn imm =>
    simpa [instrCombo, instrEncoding, addImmEncoding3, combos, operandRange] using ⟨rd.isLt, rdn.isLt, imm.isLt⟩
  | addImm8 rdn imm =>
    simpa [instrCombo, instrEncoding, addImmEncoding8, combos, operandRange] using ⟨imm.isLt, rdn.isLt⟩
  | nop => exact List.mem_singleton_self []
  | undefined raw => exact List.mem_singleton_self []

/-- The encoder packs an instruction's combination (R87). -/
theorem encode_eq_comboIndex (i : Instr) : encode i = comboIndex (instrEncoding i) (instrCombo i) := by
  rw [comboIndex_eq]
  cases i with
  | addImm3 rd rdn imm =>
    simp [encode, instrEncoding, instrCombo, addImmEncoding3, packOperands, operandBits_toNat, BitVec.or_assoc]
  | addImm8 rdn imm =>
    simp [encode, instrEncoding, instrCombo, addImmEncoding8, packOperands, operandBits_toNat, operandBits_none,
      BitVec.or_assoc]
  | nop => rfl
  | undefined raw => exact BitVec.or_zero.symm

/-- An instruction stands for the value of its combination under `C0` (R67, R89). -/
theorem value_eq_comboValue (i : Instr) : i.value = comboValue reference (instrEncoding i) (instrCombo i) := by
  cases i with
  | addImm3 rd rdn imm =>
    simp [Instr.value, comboValue, instrEncoding, instrCombo, addImmEncoding3, fieldValue_toNat,
      zeroValue, fieldsOf, reference, setField]
  | addImm8 rdn imm =>
    simp [Instr.value, comboValue, instrEncoding, instrCombo, addImmEncoding8, fieldValue_toNat, fieldValue_of_forced,
      zeroValue, fieldsOf, reference, setField]
  | nop => rfl
  | undefined raw => rfl

theorem inMatchSet_encode (i : Instr) : inMatchSet (instrEncoding i) (encode i) = true :=
  encode_eq_comboIndex i ▸ inMatchSet_comboIndex (instrEncoding_layoutOk i) (instrCombo_mem_combos i)

theorem unpackCombo_encode (i : Instr) : unpackCombo (instrEncoding i) (encode i) = instrCombo i :=
  encode_eq_comboIndex i ▸ unpackCombo_comboIndex (instrEncoding_layoutOk i) (instrCombo_mem_combos i)

theorem unpackCombo_addImmEncoding3 (x : Opcode) : unpackCombo addImmEncoding3 x =
    [some (x.extractLsb' 0 3).toNat, some (x.extractLsb' 3 3).toNat, some (x.extractLsb' 6 3).toNat] := by
  simp [unpackCombo, addImmEncoding3, unpackOperand_eq_some]

theorem unpackCombo_addImmEncoding8 (x : Opcode) : unpackCombo addImmEncoding8 x =
    [some (x.extractLsb' 0 8).toNat, some (x.extractLsb' 8 3).toNat, none] := by
  simp [unpackCombo, addImmEncoding8, unpackOperand_eq_some, unpackOperand_eq_none]

/-- Every opcode lies in the match set of what it decodes to, and decodes to what is extracted there (R60, R115). -/
theorem decode_extracts (x : Opcode) : inMatchSet (instrEncoding (decode x)) x = true ∧
    instrCombo (decode x) = unpackCombo (instrEncoding (decode x)) x := by
  unfold decode
  split_ifs with hnop h8 h3
  · exact ⟨inMatchSet_nopEncoding.mpr hnop, rfl⟩
  · exact ⟨inMatchSet_addImmEncoding8.mpr h8, (unpackCombo_addImmEncoding8 x).symm⟩
  · exact ⟨inMatchSet_addImmEncoding3.mpr h3, (unpackCombo_addImmEncoding3 x).symm⟩
  · exact ⟨(inMatchSet_iff_eq_base rfl).mpr rfl, rfl⟩

end OpcodeTable

/-! ### Decoding and encoding are inverse (R56, R67) -/

/-- Settles O2: the opcode lies in the match set of the instruction's encoding, where the decoder chooses that encoding
and extracts the combination that was packed. -/
theorem decodeOfEncode : Obligations.DecodeOfEncode := by
  intro i hi
  have hmatch := inMatchSet_encode i
  have hcombo := unpackCombo_encode i
  cases i with
  | addImm3 rd rdn imm =>
    rw [decode_of_addImm3_match (inMatchSet_addImmEncoding3.mp hmatch)]
    simpa [instrEncoding, instrCombo, unpackCombo_addImmEncoding3, ← BitVec.toNat_inj] using hcombo
  | addImm8 rdn imm =>
    rw [decode_of_addImm8_match (inMatchSet_addImmEncoding8.mp hmatch)]
    simpa [instrEncoding, instrCombo, unpackCombo_addImmEncoding8, ← BitVec.toNat_inj, and_comm] using hcombo
  | nop => rfl
  | undefined raw => exact decode_of_undefined_wellFormed hi

/-- Settles O3: what the decoder extracts from an opcode of a match set packs to that opcode. -/
theorem encodeOfDecode : Obligations.EncodeOfDecode := fun x => by
  obtain ⟨hmatch, hcombo⟩ := decode_extracts x
  refine ⟨decode_wellFormed x, ?_⟩
  rw [encode_eq_comboIndex, hcombo, comboIndex_unpackCombo hmatch]

/-- Settles O1: the decoder evaluates to the instructions of L2-M1. -/
theorem specWordsDecode : Obligations.SpecWordsDecode := by
  unfold Obligations.SpecWordsDecode
  decide

/-! ### The table built from `C0` (R66, R67) -/

theorem catalogC0_layoutOk : ∀ e ∈ encodingsOf Config.catalogC0, LayoutOk e := by
  simp [encodingsOf, Config.catalogC0, addImmEncoding3_layoutOk, addImmEncoding8_layoutOk, nopEncoding_layoutOk]

/-- The priority decoder of `C0` tests the match sets that `decode` tests, the last encoding of the catalog first. -/
theorem priorityDecode_reference (x : Opcode) : priorityDecode Config.reference x = (decode x).value := by
  obtain ⟨-, hcombo⟩ := decode_extracts x
  rw [value_eq_comboValue, hcombo, decode]
  simp only [priorityDecode, Config.reference, encodingsOf, Config.catalogC0, List.flatMap_cons, List.flatMap_nil,
    List.foldl_append, List.foldl_cons, List.foldl_nil, inMatchSet_nopEncoding, inMatchSet_addImmEncoding3,
    inMatchSet_addImmEncoding8]
  split_ifs <;> rfl

/-- Settles O11: the built table is the priority decoder's, and under `C0` that is `decode`. -/
theorem referenceTableIsOpcodeTable : Obligations.ReferenceTableIsOpcodeTable := fun x =>
  (tableGet_buildTable catalogC0_layoutOk x).trans (priorityDecode_reference x)

/-- A mask of the high bits selects an aligned block of opcodes. -/
theorem and_allOnes_shiftLeft_eq_iff (x base : Opcode) (k : Nat) :
    x &&& BitVec.allOnes 16 <<< k = base ↔ x.toNat / 2 ^ k * 2 ^ k = base.toNat := by
  rw [← BitVec.shiftLeft_ushiftRight, ← BitVec.toNat_inj, BitVec.toNat_shiftLeft, BitVec.toNat_ushiftRight,
    Nat.shiftLeft_eq, Nat.shiftRight_eq_div_pow, Nat.mod_eq_of_lt ((Nat.div_mul_le_self _ _).trans_lt x.isLt)]

theorem addImm3_match_iff (x : Opcode) : x &&& 0xFE00 = 0x1C00 ↔ 0x1C00 ≤ x.toNat ∧ x.toNat ≤ 0x1DFF := by
  have h : x &&& 0xFE00 = 0x1C00 ↔ x.toNat / 2 ^ 9 * 2 ^ 9 = 0x1C00 := and_allOnes_shiftLeft_eq_iff x 0x1C00 9
  rw [h]
  omega

theorem addImm8_match_iff (x : Opcode) : x &&& 0xF800 = 0x3000 ↔ 0x3000 ≤ x.toNat ∧ x.toNat ≤ 0x37FF := by
  have h : x &&& 0xF800 = 0x3000 ↔ x.toNat / 2 ^ 11 * 2 ^ 11 = 0x3000 := and_allOnes_shiftLeft_eq_iff x 0x3000 11
  rw [h]
  omega

theorem nop_match_iff (x : Opcode) : x = 0xBF00 ↔ x.toNat = 0xBF00 := BitVec.toNat_inj.symm

/-- Settles O10: the entry is the decoded instruction's value, and each mask of the decoder selects a range. -/
theorem referenceOpcodeMap : Obligations.ReferenceOpcodeMap := by
  intro x
  rw [referenceTableIsOpcodeTable x]
  simp only [← addImm3_match_iff, ← addImm8_match_iff, ← nop_match_iff]
  split_ifs with h3 h8 hnop
  · rw [decode_of_addImm3_match h3]; rfl
  · rw [decode_of_addImm8_match h8]; rfl
  · rw [hnop]; rfl
  · rw [decode, if_neg hnop, if_neg h8, if_neg h3]; rfl

/-! ### The step of a block with `C0` (R121, R140) -/

theorem pc_zero_of_even {pc : Word} (h : pc.toNat % 2 = 0) : pc[0] = false := by
  simp [BitVec.getElem_eq_testBit_toNat, h]

/-- A running step at a halfword that the table decodes to the value of an instruction of the opcode table is that
instruction's meaning (R121, R125): its tag has one halfword (R9). -/
theorem step_eq_exec_of_fetched {s : State} {raw : Opcode} (h : Fetched s raw (decode raw).value) :
    step s = exec (decode raw) s := by
  have hlen : lenOf s.config (decode raw).value.tag = 1 := by cases decode raw <;> rfl
  have hread : readHalfword s.mem s.memSize s.regs.pc.toNat = some raw :=
    (readHalfword_eq_some_iff ..).mpr ⟨h.inside, h.halfword.symm⟩
  simp [step, blockStep_eq, h.running, dispatcherStep, pc_zero_of_even h.even, h.image, hread, h.decoded, hlen,
    executeDecoded, instrOfDecoded]

/-- Settles O26: the invariant makes the table the built one, whose entry is the decoded instruction's value. -/
theorem referenceBlockRunsOpcodeTable : Obligations.ReferenceBlockRunsOpcodeTable := by
  intro s hinv hrun hcfg heven hinside
  obtain ⟨htable, himage⟩ := hinv.ready (by simp [hrun])
  obtain ⟨T, hT⟩ := Option.isSome_iff_exists.mp htable
  have hbuilt : T = buildTable Config.reference := by
    rw [← hcfg]
    exact congrArg Prod.fst (hinv.tableBuilt T hT)
  refine step_eq_exec_of_fetched ⟨hrun, heven, himage, hinside, rfl, ?_⟩
  rw [lookup, hT, hbuilt, Option.map_some, referenceTableIsOpcodeTable]

/-! ### Bus words (R62) -/

section Bus
variable {cfg : Configuration}

/-- R62: `ceilLog2 n` bits number `n` things. -/
theorem le_two_pow_ceilLog2 (n : Nat) : n ≤ 2 ^ ceilLog2 n := by
  unfold ceilLog2
  split
  · next h => simpa using h
  · have : n - 1 < 2 ^ (Nat.log2 (n - 1) + 1) := Nat.lt_log2_self
    omega

theorem nodup_eraseDups {α : Type} [BEq α] [LawfulBEq α] (l : List α) : l.eraseDups.Nodup := by
  match l with
  | [] => simp
  | a :: as =>
    rw [List.eraseDups_cons, List.nodup_cons]
    exact ⟨by simp, nodup_eraseDups _⟩
termination_by l.length
decreasing_by exact Nat.lt_succ_of_le (List.length_filter_le _ _)

/-- R7, R58: what the boundary asks of the tags of a configuration. -/
theorem tags_of_wellFormed (h : cfg.wellFormed = true) :
    .undefined ∈ cfg.tags ∧ cfg.tags.Nodup ∧ ∀ entry ∈ cfg.catalog, entry.1 ∈ cfg.tags := by
  have key : ∀ (cat : Catalog) (i : Nat), catalogRefusals cfg i cat = [] → ∀ entry ∈ cat, entry.1 ∈ cfg.tags := by
    intro cat
    induction cat with
    | nil => simp
    | cons entry rest ih =>
      intro i hi
      simp only [catalogRefusals, List.append_eq_nil_iff] at hi
      obtain ⟨⟨htag, -⟩, hrest⟩ := hi
      exact List.forall_mem_cons.mpr ⟨by simpa using htag, ih _ hrest⟩
  simp only [Configuration.wellFormed, Configuration.refusals, List.isEmpty_iff, List.append_eq_nil_iff] at h
  obtain ⟨⟨htags, -⟩, hcatalog⟩ := h
  have hset : .undefined ∈ cfg.tags ∧ cfg.tags.Nodup := by simpa using htags
  exact ⟨hset.1, hset.2, key _ 0 hcatalog⟩

theorem tagOrder_nodup (cfg : Configuration) : (tagOrder cfg).Nodup :=
  List.nodup_cons.mpr ⟨by simp, (nodup_eraseDups _).filter _⟩

theorem tagOrder_subset_tags (h : cfg.wellFormed = true) : tagOrder cfg ⊆ cfg.tags := by
  obtain ⟨hundefined, -, hcatalog⟩ := tags_of_wellFormed h
  intro t ht
  obtain rfl | ht := List.mem_cons.mp ht
  · exact hundefined
  · obtain ⟨entry, hentry, rfl⟩ := List.mem_map.mp (List.mem_eraseDups.mp (List.mem_filter.mp ht).1)
    exact hcatalog entry hentry

/-- R62: `TAG_BITS` bits hold every id. -/
theorem tagId_lt {t : Tag} {id : Nat} (h : cfg.wellFormed = true) (hid : tagId cfg t = some id) :
    id < 2 ^ tagBits cfg := by
  obtain ⟨hlt, -⟩ := List.idxOf?_eq_some_iff.mp hid
  calc id
    _ < (tagOrder cfg).length := hlt
    _ ≤ cfg.tags.length := (tagOrder_nodup cfg).length_le_of_subset (tagOrder_subset_tags h)
    _ ≤ 2 ^ tagBits cfg := le_two_pow_ceilLog2 _

theorem tagId_inj {t t' : Tag} {id : Nat} (h : tagId cfg t = some id) (h' : tagId cfg t' = some id) : t = t' := by
  obtain ⟨_, rfl, -⟩ := List.idxOf?_eq_some_iff.mp h
  obtain ⟨_, rfl, -⟩ := List.idxOf?_eq_some_iff.mp h'
  rfl

/-- A number determines its last digit and the rest. -/
theorem add_mul_inj {k a a' b b' : Nat} (ha : a < k) (ha' : a' < k) (h : a + k * b = a' + k * b') :
    a = a' ∧ b = b' := by
  have hk : 0 < k := Nat.zero_lt_of_lt ha
  have hmod := congrArg (· % k) h
  have hdiv := congrArg (· / k) h
  simp only [Nat.add_mul_mod_self_left, Nat.mod_eq_of_lt ha, Nat.mod_eq_of_lt ha'] at hmod
  simp only [Nat.add_mul_div_left _ _ hk, Nat.div_eq_of_lt ha, Nat.div_eq_of_lt ha', Nat.zero_add] at hdiv
  exact ⟨hmod, hdiv⟩

theorem fieldDigits_inj {ps qs : List (FieldName × Byte)} (hnames : ps.map (·.1) = qs.map (·.1))
    (hdigits : fieldDigits ps = fieldDigits qs) : ps = qs := by
  induction ps generalizing qs with
  | nil => exact (List.map_eq_nil_iff.mp hnames.symm).symm
  | cons p ps ih =>
    cases qs with
    | nil => simp at hnames
    | cons q qs =>
      obtain ⟨hname, hrest⟩ := List.cons.inj hnames
      obtain ⟨hbyte, hdigits'⟩ := add_mul_inj p.2.isLt q.2.isLt hdigits
      rw [Prod.ext hname (BitVec.eq_of_toNat_eq hbyte), ih hrest hdigits']

end Bus

/-- Settles O18: the low `TAG_BITS` bits are the tag's id, which fits there because the ids number distinct tags of
`TAGS`; the tag gives the names of the fields, and the digits above give their values. -/
theorem busWordIsInjective : Obligations.BusWordIsInjective := by
  intro cfg v v' w hcfg hv hv' hw hw'
  obtain ⟨id, hid, hword⟩ := Option.map_eq_some_iff.mp hw
  obtain ⟨id', hid', rfl⟩ := Option.map_eq_some_iff.mp hw'
  obtain ⟨rfl, hdigits⟩ := add_mul_inj (tagId_lt hcfg hid) (tagId_lt hcfg hid') hword
  have htag : v.tag = v'.tag := tagId_inj hid hid'
  have hfields : v.fields = v'.fields := fieldDigits_inj (by rw [hv, hv', htag]) hdigits
  exact congrArg₂ InstrValue.mk htag hfields

/-- Settles O19: the words are those of L2-M2, by evaluation. -/
theorem referenceBusWords : Obligations.ReferenceBusWords := by
  unfold Obligations.ReferenceBusWords
  decide

end Sys2Proof.Machine

namespace Sys2Proof.Machine

/-! ## Family 40_generator: the writes of a build and the table they leave, the collision report, refused catalogs -/

/-! ### Which write decides an entry (R91, R94) -/

/-- The last write to an index decides its entry, whatever the table and the writes before it. -/
theorem tableGet_applyWrites_last (T : DecodeTable) (before : List TableWrite) (w : TableWrite)
    {after : List TableWrite} (hlast : ∀ u ∈ after, u.1 ≠ w.1) :
    tableGet (applyWrites T (before ++ w :: after)) w.1 = w.2 := by
  rw [applyWrites_append, applyWrites_cons, tableGet_applyWrites_other _ _ hlast, tableGet_tableSet_same]

/-- Settles O5: no write after the last one to an index reaches it, and the table starts with `Undefined` everywhere. -/
theorem lastWriteWins : Obligations.LastWriteWins := by
  refine fun cfg x => ⟨?_, fun hnone => ?_⟩
  · rintro before w after hwrites rfl hlast
    rw [buildTable, hwrites, tableGet_applyWrites_last _ _ _ hlast]
  · rw [buildTable, tableGet_applyWrites_other _ _ hnone, tableGet_emptyTable, undefinedValue]

/-! ### The fields of a decoded value (R14, R15) -/

section Fields
variable {f : FieldName}

theorem lookup_cons_eq_ite (p : FieldName × Byte) (l : List (FieldName × Byte)) (f : FieldName) :
    (p :: l).lookup f = if f = p.1 then some p.2 else l.lookup f := by
  by_cases h : f = p.1
  · simp [List.lookup, h]
  · simp [List.lookup, h, beq_false_of_ne h]

theorem fieldOf_setField (v : InstrValue) (g : FieldName) (a : Byte) (f : FieldName) :
    fieldOf (setField v g a) f = if g = f then (fieldOf v f).map fun _ => a else fieldOf v f := by
  rw [fieldOf, fieldOf, setField]
  induction v.fields with
  | nil => simp
  | cons p l ih =>
    have hname : (if p.1 = g then (p.1, a) else p).1 = p.1 := by split <;> rfl
    rw [List.map_cons, lookup_cons_eq_ite, lookup_cons_eq_ite, ih, hname]
    by_cases hfp : f = p.1
    · by_cases hpg : p.1 = g
      · simp [hfp, hpg]
      · simp [hfp, hpg, Ne.symm hpg]
    · simp [hfp]

theorem fieldOf_zeroValue {cfg : Configuration} {t : Tag} (h : f ∈ fieldsOf cfg t) :
    fieldOf (zeroValue cfg t) f = some 0 := by
  have key : ∀ l : List FieldName, f ∈ l → (l.map fun g => (g, (0 : Byte))).lookup f = some 0 := by
    intro l
    induction l with
    | nil => simp
    | cons g l ih =>
      intro hf
      rw [List.map_cons, lookup_cons_eq_ite]
      split
      · rfl
      · next hne => exact ih ((List.mem_cons.mp hf).resolve_left hne)
  exact key _ h

/-- A value with the fields that the operands of a combination name filled in, in order. -/
def fillFields (v : InstrValue) (ps : List (OperandSpec × Option Nat)) : InstrValue :=
  ps.foldl (fun v p => setField v p.1.name (fieldValue p.1 p.2)) v

theorem comboValue_eq (cfg : Configuration) (e : EncodingSpec) (c : List (Option Nat)) :
    comboValue cfg e c = fillFields (zeroValue cfg e.tag) (e.operands.zip c) := rfl

@[simp] theorem fillFields_cons (v : InstrValue) (p : OperandSpec × Option Nat) (ps : List (OperandSpec × Option Nat)) :
    fillFields v (p :: ps) = fillFields (setField v p.1.name (fieldValue p.1 p.2)) ps := rfl

/-- A field that no operand names keeps its value. -/
theorem fieldOf_fillFields_other (v : InstrValue) {ps : List (OperandSpec × Option Nat)}
    (h : ∀ p ∈ ps, p.1.name ≠ f) : fieldOf (fillFields v ps) f = fieldOf v f := by
  induction ps generalizing v with
  | nil => rfl
  | cons p ps ih =>
    simp only [List.mem_cons, forall_eq_or_imp] at h
    rw [fillFields_cons, ih _ h.2, fieldOf_setField, if_neg h.1]

/-- With distinct names, no other operand writes the field of an operand. -/
theorem fieldOf_fillFields_of_mem {v : InstrValue} {ps : List (OperandSpec × Option Nat)}
    {p : OperandSpec × Option Nat} (hnames : (ps.map (·.1.name)).Nodup) (hp : p ∈ ps)
    (hfield : (fieldOf v p.1.name).isSome = true) :
    fieldOf (fillFields v ps) p.1.name = some (fieldValue p.1 p.2) := by
  induction ps generalizing v with
  | nil => simp at hp
  | cons q ps ih =>
    obtain ⟨hq, hps⟩ := List.nodup_cons.mp hnames
    have hother : ∀ r ∈ ps, r.1.name ≠ q.1.name := fun r hr hrq => hq (List.mem_map.mpr ⟨r, hr, hrq⟩)
    rw [fillFields_cons]
    obtain rfl | hmem := List.mem_cons.mp hp
    · obtain ⟨b, hb⟩ := Option.isSome_iff_exists.mp hfield
      rw [fieldOf_fillFields_other _ hother, fieldOf_setField, if_pos rfl, hb, Option.map_some]
    · exact ih hps hmem (by rwa [fieldOf_setField, if_neg (hother p hmem).symm])

end Fields

/-! ### The checks of an encoding (R83) -/

theorem mem_catalogChecks (k : CatalogCheck) : k ∈ CatalogCheck.all := by cases k <;> decide

theorem passes_of_encodingOk {cfg : Configuration} {t : Tag} {e : EncodingSpec} (h : encodingOk cfg t e = true)
    (k : CatalogCheck) : k.passes cfg t e = true := List.all_eq_true.mp h k (mem_catalogChecks k)

theorem fieldFits_width_le {e : EncodingSpec} (h : fieldFits e = true) {op : OperandSpec} (hop : op ∈ e.operands)
    (hf : op.forced = none) : op.width ≤ 8 := by
  simp only [fieldFits, nonDefaulted, List.all_eq_true, List.mem_filter] at h
  simpa using h op ⟨hop, by simp [hf]⟩

/-! ### A combination comes back out of the table (R95) -/

section RoundTrip
variable {e : EncodingSpec} {c : List (Option Nat)}

/-- A combination picks one value out of each operand's range (R86). -/
theorem mem_combos_iff_forall₂ (ops : List OperandSpec) (c : List (Option Nat)) :
    c ∈ combos ops ↔ List.Forall₂ (fun op ci => ci ∈ operandRange op) ops c := by
  induction ops generalizing c with
  | nil => simp [combos]
  | cons op ops ih => simp [cons_mem_combos, List.forall₂_cons_left_iff, ih]

theorem map_fst_zip_of_mem_combos {ops : List OperandSpec} (hc : c ∈ combos ops) : (ops.zip c).map (·.1) = ops :=
  List.map_fst_zip ((mem_combos_iff_forall₂ ops c).mp hc).length_eq.le

/-- WF2 and WF3: the decoded value has the field of every operand, and it holds that operand's value (R89). -/
theorem fieldOf_comboValue_of_mem {cfg : Configuration} (hexists : fieldExists cfg e = true)
    (hnames : distinctNames e = true) (hc : c ∈ combos e.operands) {op : OperandSpec} {ci : Option Nat}
    (hmem : (op, ci) ∈ e.operands.zip c) : fieldOf (comboValue cfg e c) op.name = some (fieldValue op ci) := by
  have hfield : op.name ∈ fieldsOf cfg e.tag := by
    simpa using List.all_eq_true.mp hexists op (List.of_mem_zip hmem).1
  have hzip : ((e.operands.zip c).map (·.1.name)).Nodup := by
    have := of_decide_eq_true hnames
    rwa [← map_fst_zip_of_mem_combos hc, List.map_map] at this
  exact fieldOf_fillFields_of_mem hzip hmem (by rw [fieldOf_zeroValue hfield]; rfl)

/-- A field that no operand names stays 0 (R89). -/
theorem fieldOf_comboValue_other {cfg : Configuration} {f : FieldName} (hf : f ∈ fieldsOf cfg e.tag)
    (hother : ∀ op ∈ e.operands, op.name ≠ f) (c : List (Option Nat)) : fieldOf (comboValue cfg e c) f = some 0 := by
  rw [comboValue_eq, fieldOf_fillFields_other _ fun p hp => hother p.1 (List.of_mem_zip hp).1, fieldOf_zeroValue hf]

/-- WF5: the field of an operand without a default holds the whole of the operand's value. -/
theorem fieldValue_toNat_of_lt {op : OperandSpec} {n : Nat} (hf : op.forced = none) (hwidth : op.width ≤ 8)
    (hn : n < 2 ^ op.width) : (fieldValue op (some n)).toNat = n := by
  have hbyte : n < 2 ^ 8 := hn.trans_le (Nat.pow_le_pow_right (by decide) hwidth)
  simpa [fieldValue, hf] using hbyte

end RoundTrip

/-- Settles O8: the entry is the value of the combination, the last one written there (R94); WF2, WF3 and WF5 let each
operand's field hold its value. -/
theorem roundTripThroughTable : Obligations.RoundTripThroughTable := by
  intro cfg entryTag e c before after hok hc hwrites hlast
  have hexists : fieldExists cfg e = true := passes_of_encodingOk hok .fieldExists
  have hnames : distinctNames e = true := passes_of_encodingOk hok .distinctNames
  have hfits : fieldFits e = true := passes_of_encodingOk hok .fieldFits
  rw [(lastWriteWins cfg _).1 before _ after hwrites rfl hlast]
  refine ⟨comboValue_tag cfg e c, fun op ci hmem => ?_, fun f hf hother => fieldOf_comboValue_other hf hother c⟩
  have hfield := fieldOf_comboValue_of_mem hexists hnames hc hmem
  cases hforced : op.forced with
  | some d => rw [hfield, fieldValue_of_forced hforced]
  | none =>
    have hrange := (List.forall₂_iff_zip.mp ((mem_combos_iff_forall₂ _ c).mp hc)).2 hmem
    obtain ⟨n, hn, rfl⟩ := (mem_operandRange_of_packed hforced).mp hrange
    have hwidth := fieldFits_width_le hfits (List.of_mem_zip hmem).1 hforced
    exact ⟨n, _, rfl, hn, hfield, fieldValue_toNat_of_lt hforced hwidth hn⟩

/-! ### The match set of an encoding (R96) -/

/-- Settles O7: extraction inverts packing between the combinations and the match set, and each of two encodings with
disjoint match sets writes entries that the other leaves alone. -/
theorem matchSetOfEncoding : Obligations.MatchSetOfEncoding := by
  intro e _ _ hin hops hbase
  have he : LayoutOk e := ⟨hin, hops, hbase⟩
  refine ⟨fun c hc c' hc' hidx => ?_, fun x => ⟨?_, fun hx => ?_⟩, fun c hc => unpackCombo_comboIndex he hc, ?_⟩
  · rw [← unpackCombo_comboIndex he hc, hidx, unpackCombo_comboIndex he hc']
  · rintro ⟨c, hc, rfl⟩
    exact inMatchSet_iff.mp (inMatchSet_comboIndex he hc)
  · exact ⟨unpackCombo e x, unpackCombo_mem_combos e x, comboIndex_unpackCombo (inMatchSet_iff.mpr hx)⟩
  · intro e' _ _ hin' hops' hbase' hdisjoint cfg T x
    have he' : LayoutOk e' := ⟨hin', hops', hbase'⟩
    simp only [applyWrites_append, tableGet_encodingWrites he, tableGet_encodingWrites he', inMatchSet_iff]
    split_ifs with hx' hx
    · exact absurd ⟨hx, hx'⟩ (hdisjoint x)
    · rfl
    · rfl
    · rfl

/-! ### The writes of an encoding as nested loops (R86, R90) -/

/-- The writes of the nested loops over operands' ranges, the first operand outermost, each packing its value into the
index and filling in its field. -/
def loopWrites (x : Opcode) (v : InstrValue) : List OperandSpec → List TableWrite
  | [] => [(x, v)]
  | op :: ops =>
    (operandRange op).flatMap fun c => loopWrites (x ||| operandBits op c) (setField v op.name (fieldValue op c)) ops

theorem encodingWrites_eq_loopWrites (cfg : Configuration) (e : EncodingSpec) :
    encodingWrites cfg e = loopWrites e.base (zeroValue cfg e.tag) e.operands := by
  have key : ∀ (ops : List OperandSpec) (x : Opcode) (v : InstrValue),
      (combos ops).map (fun c => (x ||| packOperands ops c, fillFields v (ops.zip c))) = loopWrites x v ops := by
    intro ops
    induction ops with
    | nil => simp [combos, packOperands, fillFields, loopWrites]
    | cons op ops ih =>
      intro x v
      simp [combos, loopWrites, packOperands, ← ih, List.map_flatMap, Function.comp_def, BitVec.or_assoc]
  simp only [encodingWrites, comboIndex_eq, comboValue_eq, key]

section LoopWrites
variable {op : OperandSpec} {d : Byte}

/-- A defaulted operand's loop is one iteration that packs nothing (R85, R88). -/
theorem loopWrites_cons_of_forced (hf : op.forced = some d) (x : Opcode) (v : InstrValue) (ops : List OperandSpec) :
    loopWrites x v (op :: ops) = loopWrites x (setField v op.name d) ops := by
  simp [loopWrites, operandRange, hf, operandBits_none, fieldValue_of_forced hf]

/-- Loops whose inner loops agree are the same loops. -/
theorem map_loopWrites_append_congr {α : Type} (g : TableWrite → α) (before : List OperandSpec)
    {ops ops' : List OperandSpec} (h : ∀ x v, (loopWrites x v ops).map g = (loopWrites x v ops').map g) (x : Opcode)
    (v : InstrValue) : (loopWrites x v (before ++ ops)).map g = (loopWrites x v (before ++ ops')).map g := by
  induction before generalizing x v with
  | nil => exact h x v
  | cons b before ih => simp only [List.cons_append, loopWrites, List.map_flatMap, ih]

/-- The indices do not depend on the values written. -/
theorem map_fst_loopWrites (x : Opcode) (v v' : InstrValue) (ops : List OperandSpec) :
    (loopWrites x v ops).map (·.1) = (loopWrites x v' ops).map (·.1) := by
  induction ops generalizing x v v' with
  | nil => rfl
  | cons op ops ih =>
    simp only [loopWrites, List.map_flatMap]
    congr 1
    funext c
    exact ih _ _ _

end LoopWrites

/-- Settles O12: the loop of a defaulted operand can be left out but for the field it fills in, which its width and
shift do not change. -/
theorem defaultedOperandPacksNothing : Obligations.DefaultedOperandPacksNothing := by
  intro cfg t base before after op w k hforced
  obtain ⟨d, hd⟩ := Option.isSome_iff_exists.mp hforced
  simp only [encodingWrites_eq_loopWrites]
  refine ⟨fun c => by simp [packOperand, hd], ?_, ?_⟩
  · refine map_loopWrites_append_congr _ before (fun x v => ?_) _ _
    rw [loopWrites_cons_of_forced hd]
    exact map_fst_loopWrites _ _ _ _
  · simpa using map_loopWrites_append_congr id before (fun x v => by
      rw [loopWrites_cons_of_forced hd, loopWrites_cons_of_forced (op := { op with width := w, shift := k }) hd]) _ _

/-! ### The number of writes (R106) -/

theorem length_operandRange (op : OperandSpec) :
    (operandRange op).length = if op.forced.isSome then 1 else 2 ^ op.width := by
  cases hf : op.forced <;> simp [operandRange, hf]

theorem length_combos (ops : List OperandSpec) :
    (combos ops).length = (ops.map fun op => if op.forced.isSome then 1 else 2 ^ op.width).prod := by
  induction ops with
  | nil => rfl
  | cons op ops ih => simp [combos, ih, length_operandRange]

/-- Settles O6: an encoding makes one write for each combination. -/
theorem buildWriteCount : Obligations.BuildWriteCount := by
  have hcount : ∀ cfg : Configuration, (tableWrites cfg).length =
      ((encodingsOf cfg.catalog).map fun e =>
        (e.operands.map fun op => if op.forced.isSome then 1 else 2 ^ op.width).prod).sum := fun cfg => by
    simp [tableWrites, encodingWrites, List.length_flatMap, length_combos]
  exact ⟨hcount, by rw [hcount]; decide⟩

/-! ### A last `Undefined` entry (R105) -/

theorem tableWrites_append (cfg : Configuration) (cat : Catalog) :
    tableWrites { cfg with catalog := cfg.catalog ++ cat } =
      tableWrites cfg ++ tableWrites { cfg with catalog := cat } := by
  simp only [tableWrites, encodingsOf, List.flatMap_append]
  rfl

/-- Settles O13: the entry adds one write to the end of the build. -/
theorem undefinedEntryWithdrawsOpcode : Obligations.UndefinedEntryWithdrawsOpcode := by
  intro cfg b
  rw [buildTable, tableWrites_append, applyWrites_append, ← buildTable]
  simp [tableWrites, encodingsOf, encodingWrites, combos, comboIndex, comboValue, zeroValue, fieldsOf]

/-! ### The collision report (R100) -/

/-- The line of the report that one write to a table makes, if any. -/
def collisionLine (T : DecodeTable) (w : TableWrite) : Option Collision :=
  let old := (tableGet T w.1).tag
  if old ≠ .undefined ∧ old ≠ w.2.tag then some (w.1, old, w.2.tag) else none

theorem collisionLines_cons (T : DecodeTable) (w : TableWrite) (ws : List TableWrite) :
    collisionLines T (w :: ws) = (collisionLine T w).toList ++ collisionLines (tableSet T w.1 w.2) ws := by
  simp only [collisionLines, collisionLine]
  split <;> rfl

/-- Write number `k` meets the table that the first `k` writes have left. -/
theorem collisionLines_eq_filterMap (T : DecodeTable) (ws : List TableWrite) :
    collisionLines T ws = (List.range ws.length).filterMap fun k =>
      ws[k]?.bind fun w => collisionLine (applyWrites T (ws.take k)) w := by
  induction ws generalizing T with
  | nil => rfl
  | cons w ws ih =>
    rw [collisionLines_cons, ih, List.length_cons, List.range_succ_eq_map, List.filterMap_cons, List.filterMap_map]
    cases hline : collisionLine T w <;> simp [hline, Function.comp_def]

/-- A state with another report. -/
def withReport (r : List Collision) (s : State) : State := { s with collisions := r }

@[simp] theorem withReport_config (r : List Collision) (s : State) : (withReport r s).config = s.config := rfl
@[simp] theorem withReport_phase (r : List Collision) (s : State) : (withReport r s).phase = s.phase := rfl
@[simp] theorem withReport_imageValid (r : List Collision) (s : State) :
    (withReport r s).imageValid = s.imageValid := rfl
@[simp] theorem withReport_memSize (r : List Collision) (s : State) : (withReport r s).memSize = s.memSize := rfl
@[simp] theorem withReport_regs (r : List Collision) (s : State) : (withReport r s).regs = s.regs := rfl
@[simp] theorem withReport_mem (r : List Collision) (s : State) : (withReport r s).mem = s.mem := rfl

@[simp] theorem lookup_withReport (r : List Collision) (s : State) (x : Opcode) :
    lookup (withReport r s) x = lookup s x := rfl

@[simp] theorem execInput_withReport (r : List Collision) (q : ExecRequest) (s : State) :
    execInput q (withReport r s) = execInput q s := rfl

@[simp] theorem raise_withReport (r : List Collision) (res : TerminalResult) (s : State) :
    raise res (withReport r s) = withReport r (raise res s) := rfl

@[simp] theorem applyAnswer_withReport (r : List Collision) (a : ExecAnswer) (s : State) :
    applyAnswer a (withReport r s) = withReport r (applyAnswer a s) := rfl

@[simp] theorem retire_withReport (r : List Collision) (q : ExecRequest) (o : ExecOutcome) (s : State) :
    retire q o (withReport r s) = withReport r (retire q o s) := by
  cases o <;> rfl

section Report
variable (r : List Collision) {s t : State}

theorem external_withReport (unit : ExecUnit) (q : ExecRequest) (s : State) :
    external unit q (withReport r s) = withReport r (external unit q s) := by
  obtain ⟨himpl, he⟩ | ⟨himpl, hu, he⟩ | ⟨a, himpl, hu, he⟩ := external_cases unit q s <;> rw [he]
  · simp [external, himpl]
  · simp [external, issue, himpl, hu]
  · simp [external, issue, himpl, hu]

theorem executeTag_withReport (unit : ExecUnit) (q : ExecRequest) (s : State) :
    executeTag unit q (withReport r s) = withReport r (executeTag unit q s) := by
  unfold executeTag
  cases q.value.tag with
  | undefined => rfl
  | nop => rfl
  | addImm => exact external_withReport r unit q s
  | addRegister => exact external_withReport r unit q s
  | branch => exact external_withReport r unit q s
  | other n => exact external_withReport r unit q s

/-- The dispatcher never reads the report, for every Execute that does not. -/
theorem dispatcherStep_withReport {execute : ExecRequest → State → Host.Outcome State Fault Refusal}
    (hexec : ∀ q, execute q s = .next t → execute q (withReport r s) = .next (withReport r t))
    (h : dispatcherStep execute s = .next t) : dispatcherStep execute (withReport r s) = .next (withReport r t) := by
  obtain ⟨rfl, hpc⟩ | ⟨hpc, himage, ⟨hread, rfl⟩ | ⟨raw, v, hread, hv, ⟨hlen, hread2, rfl⟩ | ⟨raw2, hraw2, he⟩⟩⟩ :=
    dispatcherStep_next h
  · simp [dispatcherStep, hpc]
  · simp [dispatcherStep, hpc, himage, hread]
  · simp [dispatcherStep, hpc, himage, hread, hv, hlen, hread2]
  · obtain ⟨hlen, hread2, hsome⟩ | ⟨hlen, rfl⟩ := hraw2
    · obtain ⟨raw2, rfl⟩ := Option.isSome_iff_exists.mp hsome
      simp [dispatcherStep, hpc, himage, hread, hv, hlen, ← hread2, hexec _ he]
    · simp [dispatcherStep, hpc, himage, hread, hv, hlen, hexec _ he]

theorem stepWith_withReport {unit : ExecUnit} (hrun : s.phase = .running) (h : stepWith unit s = .next t) :
    stepWith unit (withReport r s) = .next (withReport r t) := by
  rw [stepWith, blockStep_eq, if_pos hrun] at h
  rw [stepWith, blockStep_eq, if_pos (by simpa using hrun)]
  refine dispatcherStep_withReport r (fun q he => ?_) h
  rw [executeTag_withReport, Host.Outcome.next.inj he]

end Report

/-- Settles O14: each write is judged by the table it meets, the writes of a build do not depend on the switch, and no
operation of a step reads the report. -/
theorem collisionReportListsOverwrites : Obligations.CollisionReportListsOverwrites :=
  ⟨fun cfg => ⟨rfl, collisionLines_eq_filterMap emptyTable (tableWrites cfg), fun _ => rfl⟩,
    fun _ _ _ r hrun h => stepWith_withReport r hrun h⟩

/-! ### The two forms of `AddImm` (R103) -/

theorem fieldOf_rd_addImm3_ne (rd rdn imm : BitVec 3) : fieldOf (Instr.addImm3 rd rdn imm).value .rd ≠ some 0xFF := by
  have hrd : fieldOf (Instr.addImm3 rd rdn imm).value .rd = some (rd.setWidth 8) := rfl
  have : rd.setWidth 8 ≠ 0xFF := by bv_omega
  simpa [hrd] using this

/-- Settles O15: a 3-bit `rd` never fills its field, and an opcode decodes to the form whose match set holds it. -/
theorem forcedDefaultSelectsForm : Obligations.ForcedDefaultSelectsForm := by
  intro x htag
  rw [referenceTableIsOpcodeTable] at htag ⊢
  unfold decode at htag ⊢
  split_ifs at htag ⊢ with hnop h8 h3
  · cases htag
  · exact iff_of_true rfl h8
  · exact iff_of_false (fieldOf_rd_addImm3_ne _ _ _) h8
  · cases htag

/-! ### The configuration boundary (R84, R102) -/

section Boundary
variable {cfg : Configuration} {t : Tag} {e : EncodingSpec} {k : CatalogCheck}

theorem failedCheck_of_not_passes (h : k.passes cfg t e = false) :
    ∃ k', failedCheck cfg t e = some k' ∧ k'.passes cfg t e = false := by
  have hsome : (failedCheck cfg t e).isSome = true :=
    List.find?_isSome.mpr ⟨k, mem_catalogChecks k, by simp [h]⟩
  obtain ⟨k', hk'⟩ := Option.isSome_iff_exists.mp hsome
  exact ⟨k', hk', by simpa using List.find?_some hk'⟩

/-- An encoding's failed check is refused under the encoding's number. -/
theorem catalog_mem_encodingRefusals {es : List EncodingSpec} {n : Nat} (hfail : failedCheck cfg t e = some k)
    (he : es[n]? = some e) (entry j : Nat) :
    ConfigRefusal.catalog k entry (j + n) ∈ encodingRefusals cfg t entry j es := by
  induction es generalizing j n with
  | nil => simp at he
  | cons e' es ih =>
    rw [encodingRefusals, List.mem_append]
    cases n with
    | zero =>
      obtain rfl : e' = e := by simpa using he
      exact .inl (by simp [hfail])
    | succ n =>
      have := ih (by simpa using he) (j + 1)
      rw [Nat.add_assoc, Nat.add_comm 1] at this
      exact .inr this

/-- And under the entry's number. -/
theorem catalog_mem_catalogRefusals {cat : Catalog} {entry : Tag × List EncodingSpec} {m n : Nat}
    (hfail : failedCheck cfg entry.1 e = some k) (hentry : cat[m]? = some entry) (he : entry.2[n]? = some e) (i : Nat) :
    ConfigRefusal.catalog k (i + m) n ∈ catalogRefusals cfg i cat := by
  induction cat generalizing i m with
  | nil => simp at hentry
  | cons entry' cat ih =>
    rw [catalogRefusals, List.mem_append, List.mem_append]
    cases m with
    | zero =>
      obtain rfl : entry' = entry := by simpa using hentry
      have := catalog_mem_encodingRefusals hfail he i 0
      rw [Nat.zero_add] at this
      exact .inl (.inr this)
    | succ m =>
      have := ih (by simpa using hentry) (i + 1)
      rw [Nat.add_assoc, Nat.add_comm 1] at this
      exact .inr this

theorem catalog_mem_refusals {entry : Tag × List EncodingSpec} {i j : Nat} (hentry : cfg.catalog[i]? = some entry)
    (he : entry.2[j]? = some e) (hk : k.passes cfg entry.1 e = false) :
    ∃ k', k'.passes cfg entry.1 e = false ∧ ConfigRefusal.catalog k' i j ∈ cfg.refusals := by
  obtain ⟨k', hfail, hk'⟩ := failedCheck_of_not_passes hk
  have := catalog_mem_catalogRefusals hfail hentry he 0
  rw [Nat.zero_add] at this
  exact ⟨k', hk', List.mem_append_right _ this⟩

theorem accept_eq_ok_iff {c : { c : Configuration // c.wellFormed = true }} : cfg.accept = .ok c ↔ c.1 = cfg := by
  unfold Configuration.accept
  split
  · next h => simp [Subtype.ext_iff, eq_comm]
  · next h =>
    have hne : c.1 ≠ cfg := fun hc => h (hc ▸ c.2)
    split <;> simp [hne]

theorem accept_error_of_mem_refusals {r : ConfigRefusal} (h : r ∈ cfg.refusals) : ∃ r', cfg.accept = .error r' := by
  cases haccept : cfg.accept with
  | error r' => exact ⟨r', rfl⟩
  | ok c =>
    have hwf : cfg.wellFormed = true := accept_eq_ok_iff.mp haccept ▸ c.2
    rw [Configuration.wellFormed, List.isEmpty_iff] at hwf
    simp [hwf] at h

end Boundary

/-- Settles O17: a check that an encoding fails is among the refusals, and an admitted configuration has none. -/
theorem illFormedCatalogRefused : Obligations.IllFormedCatalogRefused := by
  intro cfg
  refine ⟨fun c hc => ⟨accept_eq_ok_iff.mp hc, fun entry hentry e he k => ?_⟩, fun i j entry e k hentry he hk => ?_⟩
  · by_contra hk
    obtain ⟨i, hi⟩ := List.mem_iff_getElem?.mp hentry
    obtain ⟨j, hj⟩ := List.mem_iff_getElem?.mp he
    obtain ⟨k', -, hmem⟩ := catalog_mem_refusals hi hj (Bool.eq_false_iff.mpr hk)
    obtain ⟨r, hr⟩ := accept_error_of_mem_refusals hmem
    rw [hr] at hc
    cases hc
  · obtain ⟨k', hk', hmem⟩ := catalog_mem_refusals hentry he hk
    exact ⟨accept_error_of_mem_refusals hmem, k', hk', hmem⟩

end Sys2Proof.Machine

namespace Sys2Proof.Machine

/-! ## Family 41_lookup_mux: the priority decoder, the DEBUG reads, and a block without a table -/

/-! ### The table of a well-formed configuration is the priority decoder's (R115) -/

section PriorityDecoder
variable {cfg : Configuration} {e : EncodingSpec} {x : Opcode}

/-- An admitted configuration passes WF6 to WF8 at every encoding (R84). -/
theorem layoutOk_of_wellFormed (h : cfg.wellFormed = true) : ∀ e ∈ encodingsOf cfg.catalog, LayoutOk e := by
  intro e he
  obtain ⟨entry, hentry, hmem⟩ := List.mem_flatMap.mp he
  obtain ⟨-, hpasses⟩ := (illFormedCatalogRefused cfg).1 ⟨cfg, h⟩ (accept_eq_ok_iff.mpr rfl)
  have hchecks := hpasses entry hentry e hmem
  exact ⟨hchecks .inRange, hchecks .noOverlapOperands, hchecks .noOverlapBase⟩

theorem buildTable_eq_priorityTable (h : cfg.wellFormed = true) : buildTable cfg = priorityTable cfg :=
  table_ext (tableFull_buildTable cfg) (tableFull_tableOfFn _) fun x => by
    rw [tableGet_buildTable (layoutOk_of_wellFormed h), priorityTable, tableGet_tableOfFn]

/-- What the priority decoder holds after one more encoding: the value extracted by it, where it matches. -/
def takeMatch (cfg : Configuration) (x : Opcode) (v : InstrValue) (e : EncodingSpec) : InstrValue :=
  if inMatchSet e x then comboValue cfg e (unpackCombo e x) else v

theorem priorityDecode_eq_foldl (cfg : Configuration) (x : Opcode) :
    priorityDecode cfg x = (encodingsOf cfg.catalog).foldl (takeMatch cfg x) undefinedValue := rfl

theorem takeMatch_of_match (h : x &&& fixedMask e = e.base) (v : InstrValue) :
    takeMatch cfg x v e = comboValue cfg e (unpackCombo e x) :=
  if_pos (inMatchSet_iff.mpr h)

theorem takeMatch_of_no_match (h : x &&& fixedMask e ≠ e.base) (v : InstrValue) : takeMatch cfg x v e = v :=
  if_neg (mt inMatchSet_iff.mp h)

/-- Encodings that do not match leave the value of those before them. -/
theorem foldl_takeMatch_of_no_match {es : List EncodingSpec} (h : ∀ e ∈ es, x &&& fixedMask e ≠ e.base)
    (v : InstrValue) : es.foldl (takeMatch cfg x) v = v := by
  induction es with
  | nil => rfl
  | cons e es ih =>
    simp only [List.mem_cons, forall_eq_or_imp] at h
    rw [List.foldl_cons, takeMatch_of_no_match h.1, ih h.2]

theorem priorityDecode_of_last_match {before after : List EncodingSpec}
    (hcat : encodingsOf cfg.catalog = before ++ e :: after) (hmatch : x &&& fixedMask e = e.base)
    (hlast : ∀ e' ∈ after, x &&& fixedMask e' ≠ e'.base) :
    priorityDecode cfg x = comboValue cfg e (unpackCombo e x) := by
  rw [priorityDecode_eq_foldl, hcat, List.foldl_append, List.foldl_cons, foldl_takeMatch_of_no_match hlast,
    takeMatch_of_match hmatch]

theorem priorityDecode_of_no_match (h : ∀ e ∈ encodingsOf cfg.catalog, x &&& fixedMask e ≠ e.base) :
    priorityDecode cfg x = undefinedValue :=
  foldl_takeMatch_of_no_match h undefinedValue

end PriorityDecoder

/-- Settles O9: an entry of the built table is the priority decoder's value, and that is the last match's. -/
theorem tableIsPriorityDecoder : Obligations.TableIsPriorityDecoder := by
  intro cfg hwf
  refine ⟨buildTable_eq_priorityTable hwf, fun x => ?_⟩
  rw [tableGet_buildTable (layoutOk_of_wellFormed hwf)]
  exact ⟨fun _ _ _ => priorityDecode_of_last_match, priorityDecode_of_no_match⟩

/-! ### The DEBUG reads (R113, R114, R118) -/

theorem length_dumpTable (T : DecodeTable) : (dumpTable T).length = 65536 := by simp [dumpTable]

theorem dumpTable_getElem? (T : DecodeTable) (i : Opcode) : (dumpTable T)[i.toNat]? = some (debugEntry T i) := by
  rw [dumpTable, List.getElem?_map, List.getElem?_range i.isLt, Option.map_some, BitVec.ofNat_toNat,
    BitVec.setWidth_eq]

/-- Settles O20: `Dump` makes one pair for each index of the range, in its order. -/
theorem dumpListsEveryEntry : Obligations.DumpListsEveryEntry := fun T =>
  ⟨length_dumpTable T, dumpTable_getElem? T⟩

section Debug
variable {s : State}

/-- Outside a run a DEBUG read is admitted, and the table alone decides whether there is a reply. -/
theorem hostCommand_debugRead (hphase : s.phase ≠ .running) (i : Opcode) : hostCommand (.debugRead i) s =
    s.table.elim (.refused .noTable) fun T => .next (hostReply [debugEntry T i] s) := by
  have hadmitted : admitted s.phase (.debugRead i) = true := bne_iff_ne.mpr hphase
  cases hT : s.table <;> simp [hostCommand, hadmitted, hT]

theorem hostCommand_dump (hphase : s.phase ≠ .running) : hostCommand .dump s =
    s.table.elim (.refused .noTable) fun T => .next (hostReply (dumpTable T) s) := by
  have hadmitted : admitted s.phase .dump = true := bne_iff_ne.mpr hphase
  cases hT : s.table <;> simp [hostCommand, hadmitted, hT]

end Debug

/-- Settles O21: with a table both reads reply, and a reply writes the reply's field alone. -/
theorem debugReadsOnly : Obligations.DebugReadsOnly := by
  intro s T i hphase hT
  change hostCommand (.debugRead i) s = .next (hostReply [debugEntry T i] s) ∧
    hostCommand .dump s = .next (hostReply (dumpTable T) s)
  rw [hostCommand_debugRead hphase, hostCommand_dump hphase, hT]
  exact ⟨rfl, rfl⟩

/-! ### A block without a table (R118) -/

theorem lookup_eq_none {s : State} (hT : s.table = none) (x : Opcode) : lookup s x = none := by
  rw [lookup, hT, Option.map_none]

/-- Whatever Execute is, a fetch that succeeds has nothing to decode its halfword with. -/
theorem dispatcherStep_of_no_table (execute : ExecRequest → State → Host.Outcome State Fault Refusal) {s : State}
    (hT : s.table = none) (heven : s.regs.pc.toNat % 2 = 0) (himage : s.imageValid = true)
    (hinside : s.regs.pc.toNat + 2 ≤ s.memSize) : dispatcherStep execute s = .refused .noTable := by
  have hread := (readHalfword_eq_some_iff s.mem ..).mpr ⟨hinside, rfl⟩
  simp [dispatcherStep, pc_zero_of_even heven, himage, hread, lookup_eq_none hT]

/-- Settles O22: LOOKUP, both DEBUG reads and the dispatcher all go through the table. -/
theorem noTableNoLookup : Obligations.NoTableNoLookup := by
  intro s i hT
  refine ⟨lookup_eq_none hT i, fun hphase => ?_, fun hrun heven himage hinside => ?_⟩
  · rw [hostCommand_debugRead hphase, hostCommand_dump hphase, hT]
    exact ⟨rfl, rfl⟩
  · rw [step, blockStep_eq, if_pos hrun]
    exact dispatcherStep_of_no_table _ hT heven himage hinside

end Sys2Proof.Machine

namespace Sys2Proof.Machine

/-! ## Family 42_dispatch: the dispatcher's step, the instructions, the execution unit's answers -/

/-! ### The dispatcher up to Execute (R121 to R124, R160) -/

theorem pc_zero_of_odd {pc : Word} (h : pc.toNat % 2 = 1) : pc[0] = true := by
  simp [BitVec.getElem_eq_testBit_toNat, h]

theorem lenOf_eq_one_or_two (cfg : Configuration) (t : Tag) : lenOf cfg t = 1 ∨ lenOf cfg t = 2 := by
  cases t with
  | undefined | nop | addImm => exact .inl rfl
  | addRegister | branch | other n =>
    simp only [lenOf]
    split_ifs
    · exact .inr rfl
    · exact .inl rfl

section Fetching
variable {execute : ExecRequest → State → Host.Outcome State Fault Refusal} {s : State} {raw : Opcode} {v : InstrValue}
  {raw2 : Option Opcode}

theorem dispatcherStep_of_odd (hodd : s.regs.pc.toNat % 2 = 1) :
    dispatcherStep execute s = .next (raise (misalignedFetch s.regs.pc) s) := by
  simp [dispatcherStep, pc_zero_of_odd hodd]

theorem dispatcherStep_of_no_image (heven : s.regs.pc.toNat % 2 = 0) (himage : s.imageValid = false) :
    dispatcherStep execute s = .fault .noImage := by
  simp [dispatcherStep, pc_zero_of_even heven, himage]

theorem dispatcherStep_of_first_outside (heven : s.regs.pc.toNat % 2 = 0) (himage : s.imageValid = true)
    (houtside : s.memSize < s.regs.pc.toNat + 2) :
    dispatcherStep execute s = .next (raise (firstFetchOutOfBounds s.regs.pc) s) := by
  have hread := (readHalfword_eq_none_iff s.mem ..).mpr houtside
  simp [dispatcherStep, pc_zero_of_even heven, himage, hread]

theorem Fetched.readHalfword_eq (h : Fetched s raw v) : readHalfword s.mem s.memSize s.regs.pc.toNat = some raw :=
  (readHalfword_eq_some_iff ..).mpr ⟨h.inside, h.halfword.symm⟩

theorem dispatcherStep_of_second_outside (h : Fetched s raw v) (hlen : lenOf s.config v.tag = 2)
    (houtside : s.memSize < s.regs.pc.toNat + 4) :
    dispatcherStep execute s = .next (raise (secondFetchOutOfBounds s.regs.pc raw v) s) := by
  have hread := (readHalfword_eq_none_iff s.mem s.memSize (s.regs.pc.toNat + 2)).mpr houtside
  simp [dispatcherStep, pc_zero_of_even h.even, h.image, h.readHalfword_eq, h.decoded, hlen, hread]

/-- Once its halfwords are fetched, a step is Execute on the request they make (R121, R125). -/
theorem dispatcherStep_of_fetched (h : Fetched s raw v) (hsecond : SecondFetched s v raw2) :
    dispatcherStep execute s = execute { value := v, pc := s.regs.pc, raw, raw2 } s := by
  obtain ⟨hlen, rfl⟩ | ⟨hlen, hinside, rfl⟩ := hsecond
  · simp [dispatcherStep, pc_zero_of_even h.even, h.image, h.readHalfword_eq, h.decoded, hlen]
  · have hread := (readHalfword_eq_some_iff s.mem s.memSize (s.regs.pc.toNat + 2) _).mpr ⟨hinside, rfl⟩
    simp [dispatcherStep, pc_zero_of_even h.even, h.image, h.readHalfword_eq, h.decoded, hlen, hread]

/-- A step of a run that Execute has no part in: it raises at a fetch, or lacks the image or the table. -/
inductive StopsBeforeExecute (s : State) : Prop where
  | raised (r : TerminalResult) (h : ∀ execute, dispatcherStep execute s = .next (raise r s))
  | noImage (himage : s.imageValid = false) (h : ∀ execute, dispatcherStep execute s = .fault .noImage)
  | noTable (htable : s.table = none) (h : ∀ execute, dispatcherStep execute s = .refused .noTable)

/-- A step of a run fetches what it executes, or Execute has no part in it. -/
theorem fetched_or_stopsBeforeExecute (hrun : s.phase = .running) :
    (∃ raw v raw2, Fetched s raw v ∧ SecondFetched s v raw2) ∨ StopsBeforeExecute s := by
  obtain hodd | heven := (Nat.mod_two_eq_zero_or_one s.regs.pc.toNat).symm
  · exact .inr (.raised _ fun _ => dispatcherStep_of_odd hodd)
  cases himage : s.imageValid with
  | false => exact .inr (.noImage himage fun _ => dispatcherStep_of_no_image heven himage)
  | true =>
    obtain houtside | hinside := Nat.lt_or_ge s.memSize (s.regs.pc.toNat + 2)
    · exact .inr (.raised _ fun _ => dispatcherStep_of_first_outside heven himage houtside)
    cases htable : s.table with
    | none =>
      exact .inr (.noTable htable fun execute => dispatcherStep_of_no_table execute htable heven himage hinside)
    | some T =>
      have hfetched : Fetched s _ _ := ⟨hrun, heven, himage, hinside, rfl, by rw [lookup, htable]; rfl⟩
      obtain hlen | hlen := lenOf_eq_one_or_two s.config _
      · exact .inl ⟨_, _, none, hfetched, .inl ⟨hlen, rfl⟩⟩
      · obtain houtside2 | hinside2 := Nat.lt_or_ge s.memSize (s.regs.pc.toNat + 4)
        · exact .inr (.raised _ fun _ => dispatcherStep_of_second_outside hfetched hlen houtside2)
        · exact .inl ⟨_, _, some _, hfetched, .inr ⟨hlen, hinside2, rfl⟩⟩

/-- Where Execute has no part in it, the step is the same for any other. -/
theorem StopsBeforeExecute.dispatcherStep_eq (h : StopsBeforeExecute s)
    (execute execute' : ExecRequest → State → Host.Outcome State Fault Refusal) :
    dispatcherStep execute s = dispatcherStep execute' s := by
  obtain ⟨r, h⟩ | ⟨-, h⟩ | ⟨-, h⟩ := h <;> rw [h, h]

theorem stepWith_of_running (unit : ExecUnit) (hrun : s.phase = .running) :
    stepWith unit s = dispatcherStep (fun q s => .next (executeTag unit q s)) s := by
  rw [stepWith, blockStep_eq, if_pos hrun]

theorem stepWith_of_not_running (unit : ExecUnit) (hrun : s.phase ≠ .running) : stepWith unit s = hostStep s := by
  rw [stepWith, blockStep_eq, if_neg hrun]

theorem stepWith_of_fetched (unit : ExecUnit) (h : Fetched s raw v) (hsecond : SecondFetched s v raw2) :
    stepWith unit s = .next (executeTag unit { value := v, pc := s.regs.pc, raw, raw2 } s) := by
  rw [stepWith_of_running unit h.running, dispatcherStep_of_fetched h hsecond]

end Fetching

/-! ### The step is the match on the tag (R121, R125) -/

theorem lenOf_value_tag (cfg : Configuration) (i : Instr) : lenOf cfg i.value.tag = 1 := by
  cases i <;> rfl

/-- On a request that the dispatcher makes, running the decoded instruction is the match on the tag: the opcode encodes
that instruction, whose tag has one halfword. -/
theorem executeDecoded_exec {s : State} {raw : Opcode} {v : InstrValue} {raw2 : Option Opcode}
    (hsecond : SecondFetched s v raw2) :
    executeDecoded exec { value := v, pc := s.regs.pc, raw, raw2 } s =
      .next (executeTag Config.execUnit { value := v, pc := s.regs.pc, raw, raw2 } s) := by
  by_cases hv : (decode raw).value = v
  · subst hv
    have hraw2 : raw2 = none := by
      obtain ⟨-, h⟩ | ⟨hlen, -⟩ := hsecond
      · exact h
      · rw [lenOf_value_tag] at hlen
        omega
    have hraw : encode (decode raw) = raw := (encodeOfDecode raw).2
    simp [executeDecoded, instrOfDecoded, exec_eq_executeTag, instrRequest, hraw, hraw2]
  · simp [executeDecoded, instrOfDecoded, hv]

/-- Settles O27: Execute is the same on what a step fetched, and has no part in any other transition. -/
theorem stepIsTagDispatch : Obligations.StepIsTagDispatch := by
  intro s
  rw [step, stepWith, blockStep_eq, blockStep_eq]
  split_ifs with hrun
  · obtain ⟨raw, v, raw2, hfetched, hsecond⟩ | hstops := fetched_or_stopsBeforeExecute hrun
    · rw [dispatcherStep_of_fetched hfetched hsecond, dispatcherStep_of_fetched hfetched hsecond,
        executeDecoded_exec hsecond]
    · exact hstops.dispatcherStep_eq _ _
  · rfl

/-- Settles O25: the instruction's tag has one halfword, so the step is at Execute, which runs the instruction. -/
theorem stepRunsDecodedInstruction : Obligations.StepRunsDecodedInstruction := by
  rintro s raw i - rfl hfetched
  exact step_eq_exec_of_fetched hfetched

/-- Settles O49: with a table and an image no step of a run stops, and what it leaves runs on or has a result. -/
theorem runningStepAlwaysAnswers : Obligations.RunningStepAlwaysAnswers := by
  intro s hinv hrun
  obtain ⟨htable, himage⟩ := hinv.ready (by simp [hrun])
  have hnext : ∃ t, step s = .next t := by
    rw [stepIsTagDispatch s]
    obtain ⟨raw, v, raw2, hfetched, hsecond⟩ | ⟨r, h⟩ | ⟨hnone, -⟩ | ⟨hnone, -⟩ := fetched_or_stopsBeforeExecute hrun
    · exact ⟨_, stepWith_of_fetched _ hfetched hsecond⟩
    · exact ⟨_, (stepWith_of_running _ hrun).trans (h _)⟩
    · simp [himage] at hnone
    · simp [hnone] at htable
  obtain ⟨t, ht⟩ := hnext
  obtain ⟨hphase, -⟩ | hended := (step_runStepLeaves hrun ht).control.2
  · exact ⟨t, ht, .inl (hphase.trans hrun)⟩
  · exact ⟨t, ht, .inr hended⟩

/-! ### `Undefined` and `Nop` (R130, R131) -/

/-- Settles O28: raising is all that `Undefined` does. -/
theorem undefinedRaisesUndefinedOpcode : Obligations.UndefinedRaisesUndefinedOpcode := fun _ _ => rfl

/-- Settles O29: `Nop` retires as `Sequential`, over its one halfword. -/
theorem nopAdvancesPc : Obligations.NopAdvancesPc := fun _ => rfl

theorem advance_of_one_halfword {q : ExecRequest} {s : State} (h : lenOf s.config q.value.tag = 1) :
    advance q s = setPc s (q.pc + 2) := by
  rw [advance, h]
  rfl

theorem executeTag_of_undefined {q : ExecRequest} (htag : q.value.tag = .undefined) (unit : ExecUnit) (s : State) :
    executeTag unit q s = raise (undefinedOpcode q.pc q.raw) s := by
  rw [executeTag, htag]
  rfl

theorem executeTag_of_nop {q : ExecRequest} (htag : q.value.tag = .nop) (unit : ExecUnit) (s : State) :
    executeTag unit q s = setPc s (q.pc + 2) := by
  rw [executeTag, htag]
  exact advance_of_one_halfword (by rw [htag]; rfl)

/-- Settles O38: `Nop` has one halfword and retires as `Sequential`, without the execution unit. -/
theorem nopStep : Obligations.NopStep := by
  intro unit s raw v hfetched htag
  have hlen : lenOf s.config v.tag = 1 := by rw [htag]; rfl
  rw [stepWith_of_fetched unit hfetched (.inl ⟨hlen, rfl⟩), executeTag_of_nop htag]
  rfl

/-- Settles O42: the sum is at most the size of the image, which is below `2^32`. -/
theorem advanceDoesNotWrap : Obligations.AdvanceDoesNotWrap := by
  intro s q hinv himage hinside
  have hsize := hinv.sizeOk himage
  have hexact : (advance q s).regs.pc.toNat = q.pc.toNat + 2 * lenOf s.config q.value.tag := by
    rw [advance_pc, BitVec.toNat_add, BitVec.toNat_ofNat]
    omega
  exact ⟨hexact, hexact ▸ hinside⟩

/-- Settles O39: `PC` reaches the end without wrapping, and no halfword can be fetched there. -/
theorem nopAtEndThenFetchOutOfBounds : Obligations.NopAtEndThenFetchOutOfBounds := by
  intro s raw v hinv hfetched htag hend
  have hsize := hinv.sizeOk hfetched.image
  have heven := hfetched.even
  have hstep : step s = .next (setPc s (s.regs.pc + 2)) :=
    (stepIsTagDispatch s).trans (nopStep _ s raw v hfetched htag)
  have hpc : (setPc s (s.regs.pc + 2)).regs.pc.toNat = s.memSize := by
    rw [setPc_regs]
    bv_omega
  have hrun : (setPc s (s.regs.pc + 2)).phase = .running := hfetched.running
  refine ⟨_, hstep, hpc, hrun, ?_⟩
  rw [stepIsTagDispatch, stepWith_of_running _ hrun]
  exact dispatcherStep_of_first_outside (by omega) hfetched.image (by rw [hpc, setPc_memSize]; omega)

/-! ### The arm of a tag that the execution unit is to run (R126, R132, R137) -/

section External
variable {unit : ExecUnit} {q : ExecRequest} {s : State}

theorem external_of_not_implemented (himpl : implemented s.config q.value.tag = false) :
    external unit q s = raise (unimplemented q) s := by
  simp [external, himpl]

theorem external_of_noAnswer (himpl : implemented s.config q.value.tag = true)
    (hunit : unit (execInput q s) = .noAnswer) : external unit q s = s := by
  simp [external, himpl, issue, hunit]

theorem external_of_answered {a : ExecAnswer} (himpl : implemented s.config q.value.tag = true)
    (hunit : unit (execInput q s) = .answered a) : external unit q s = retire q a.outcome (applyAnswer a s) := by
  simp [external, himpl, issue, hunit]

theorem executeTag_of_external (hundefined : q.value.tag ≠ .undefined) (hnop : q.value.tag ≠ .nop) :
    executeTag unit q s = external unit q s := by
  obtain ⟨h, -⟩ | ⟨h, -⟩ | ⟨-, -, h⟩ := executeTag_cases unit q s
  · exact absurd h hundefined
  · exact absurd h hnop
  · exact h

/-- Of the execution unit, Execute depends on the answer to its request alone. -/
theorem executeTag_congr {unit' : ExecUnit} (h : unit (execInput q s) = unit' (execInput q s)) :
    executeTag unit q s = executeTag unit' q s := by
  have hexternal : external unit q s = external unit' q s := by rw [external, external, issue, issue, h]
  unfold executeTag
  cases q.value.tag with
  | undefined | nop => rfl
  | addImm | addRegister | branch | other n => exact hexternal

end External

/-- Settles O34: the tag's arm asks the execution unit, and retirement has one case for each outcome. -/
theorem implementedTagStep : Obligations.ImplementedTagStep := by
  intro unit s raw v raw2 a hfetched hsecond hundefined hnop himpl hunit u r
  rw [stepWith_of_fetched unit hfetched hsecond, executeTag_of_external hundefined hnop,
    external_of_answered himpl hunit]
  cases a.outcome <;> rfl

/-- Settles O35: `Undefined` and `Nop` have one halfword, so this is a step of an implemented tag. -/
theorem twoHalfwordStepConsumesFour : Obligations.TwoHalfwordStepConsumesFour := by
  intro unit s raw raw2 v a hfetched hsecond himpl hunit hseq
  obtain ⟨hlen, hraw2⟩ : lenOf s.config v.tag = 2 ∧
      some raw2 = some (halfwordLE (memRead s.mem (s.regs.pc.toNat + 2)) (memRead s.mem (s.regs.pc.toNat + 3))) := by
    obtain ⟨-, h⟩ | ⟨hlen, -, h⟩ := hsecond
    · cases h
    · exact ⟨hlen, h⟩
  have hundefined : v.tag ≠ .undefined := fun h => by simp [h, lenOf] at hlen
  have hnop : v.tag ≠ .nop := fun h => by simp [h, lenOf] at hlen
  have hstep := implementedTagStep unit s raw v (some raw2) a hfetched hsecond hundefined hnop himpl hunit
  simp only [hseq, hlen] at hstep
  exact ⟨_, hstep, hfetched.running, rfl, Option.some.inj hraw2⟩

/-! ### At most one request (R146) -/

section OneRequest
variable {unit unit' : ExecUnit} {s t : State} {r : TerminalResult}

/-- A step that raises what a dispatcher raises did not ask: an answer retires with another kind of result, or with none
(R127), and a request that is not answered gives no result. -/
theorem executeTag_eq_of_dispatcherResult {q : ExecRequest} (hresult : s.result = none)
    (ht : (executeTag unit q s).result = some r)
    (hkind : r.kind ∈ [TermKind.misalignedFetch, .fetchOutOfBounds, .undefinedOpcode, .unimplemented]) :
    executeTag unit' q s = executeTag unit q s := by
  obtain ⟨htag, he⟩ | ⟨htag, he⟩ | ⟨hundefined, hnop, he⟩ := executeTag_cases unit q s
  · rw [executeTag_of_undefined htag, executeTag_of_undefined htag]
  · rw [executeTag_of_nop htag, executeTag_of_nop htag]
  · rw [he] at ht ⊢
    rw [executeTag_of_external hundefined hnop]
    obtain ⟨himpl, hx⟩ | ⟨-, -, hx⟩ | ⟨a, -, -, hx⟩ := external_cases unit q s
    · rw [hx, external_of_not_implemented himpl]
    · simp [hx, hresult] at ht
    · rw [hx] at ht
      obtain ⟨pc, hr, -⟩ | ⟨r', hr, hother⟩ := retire_cases q a.outcome (applyAnswer a s)
      · simp [hr, hresult] at ht
      · obtain rfl : r' = r := by simpa [hr] using ht
        obtain h | h | h := hother <;> simp [h] at hkind

theorem stepWith_congr_of_fetched {raw : Opcode} {v : InstrValue} {raw2 : Option Opcode} (h : Fetched s raw v)
    (hsecond : SecondFetched s v raw2)
    (hunit : unit (execInput { value := v, pc := s.regs.pc, raw, raw2 } s) =
      unit' (execInput { value := v, pc := s.regs.pc, raw, raw2 } s)) : stepWith unit s = stepWith unit' s := by
  rw [stepWith_of_fetched unit h hsecond, stepWith_of_fetched unit' h hsecond, executeTag_congr hunit]

theorem StopsBeforeExecute.stepWith_eq (h : StopsBeforeExecute s) (hrun : s.phase = .running) (unit unit' : ExecUnit) :
    stepWith unit s = stepWith unit' s := by
  rw [stepWith_of_running unit hrun, stepWith_of_running unit' hrun, h.dispatcherStep_eq]

end OneRequest

/-- Settles O43: the one input is that of the request of what the step fetched; a step that fetched nothing to execute,
and one outside a run, asks nothing, whatever the input (here that of a `Nop`). -/
theorem atMostOneRequest : Obligations.AtMostOneRequest := by
  refine ⟨fun s => ?_, fun unit unit' s t r hrun hresult hstep ht hkind => ?_⟩
  · by_cases hrun : s.phase = .running
    · obtain ⟨raw, v, raw2, hfetched, hsecond⟩ | hstops := fetched_or_stopsBeforeExecute hrun
      · exact ⟨_, fun _ _ => stepWith_congr_of_fetched hfetched hsecond⟩
      · exact ⟨execInput (instrRequest .nop s) s, fun unit unit' _ => hstops.stepWith_eq hrun unit unit'⟩
    · refine ⟨execInput (instrRequest .nop s) s, fun unit unit' _ => ?_⟩
      rw [stepWith_of_not_running unit hrun, stepWith_of_not_running unit' hrun]
  · obtain ⟨raw, v, raw2, hfetched, hsecond⟩ | hstops := fetched_or_stopsBeforeExecute hrun
    · rw [stepWith_of_fetched unit hfetched hsecond] at hstep
      obtain rfl := Host.Outcome.next.inj hstep
      rw [stepWith_of_fetched unit' hfetched hsecond, executeTag_eq_of_dispatcherResult hresult ht hkind]
    · rw [hstops.stepWith_eq hrun unit' unit, hstep]

/-! ### The effects of an answer (R126, R143) -/

theorem regWrites_append (r : RegFile) (ws ws' : List (RegId × Word)) :
    regWrites r (ws ++ ws') = regWrites (regWrites r ws) ws' := by
  simp [regWrites]

/-- No write changes which registers the file has. -/
theorem isSome_regRead_regWrites (r : RegFile) (ws : List (RegId × Word)) (id : RegId) :
    (regRead (regWrites r ws) id).isSome = (regRead r id).isSome := by
  cases id with
  | status n =>
    rw [Bool.eq_iff_iff]
    simp [regRead]
  | gpr _ | stackPointerA | stackPointerB | link => rfl

/-- The last write to a register of the file is what it then holds. -/
theorem regRead_regWrites_last {r : RegFile} {before after : List (RegId × Word)} {id : RegId} {w : Word}
    (hid : (regRead r id).isSome = true) (hlast : ∀ p ∈ after, p.1 ≠ id) :
    regRead (regWrites r (before ++ (id, w) :: after)) id = some w := by
  rw [← isSome_regRead_regWrites r before] at hid
  obtain ⟨old, hold⟩ := Option.isSome_iff_exists.mp hid
  rw [regWrites_append]
  exact (regRead_regWrites_other _ after hlast).trans (regRead_regWrite_same hold)

/-- A store outside the image is as if it were not made (log entry 1). -/
theorem memStores_filter (size : Nat) (m : Memory) (ss : List (Nat × Byte)) :
    memStores size m (ss.filter (·.1 < size)) = memStores size m ss := by
  induction ss generalizing m with
  | nil => rfl
  | cons p ss ih =>
    by_cases hp : p.1 < size
    · simpa [memStores, hp] using ih (memWrite m p.1 p.2)
    · simpa [memStores, hp] using ih m

/-- A byte that no store inside the image names reads as before. -/
theorem memRead_memStores_of_not_stored {size : Nat} {m : Memory} {ss : List (Nat × Byte)} {addr : Nat}
    (hm : memWf m = true) (h : addr < size → ∀ p ∈ ss, p.1 ≠ addr) :
    memRead (memStores size m ss) addr = memRead m addr := by
  rw [← memStores_filter]
  refine memRead_memStores_other size _ hm fun p hp => ?_
  obtain ⟨hmem, hinside⟩ := List.mem_filter.mp hp
  rintro rfl
  exact h (of_decide_eq_true hinside) p hmem rfl

theorem memRead_of_byteAfterStores {size : Nat} {m : Memory} {ss : List (Nat × Byte)} {addr : Nat} {b : Byte}
    (hm : memWf m = true) (hinside : addr < size) (h : ByteAfterStores m ss addr b) :
    memRead (memStores size m ss) addr = b := by
  obtain ⟨before, after, rfl, hlast⟩ | ⟨hnone, rfl⟩ := h
  · exact memRead_memStores_last hm hinside hlast
  · exact memRead_memStores_other size ss hm hnone

/-- Settles O33: register writes are made in order, each to its register alone. -/
theorem answerWritesOnlyNamedRegisters : Obligations.AnswerWritesOnlyNamedRegisters := by
  intro a s id
  refine ⟨applyAnswer_pc a s, fun before w after hws hlast hid => ?_, regRead_regWrites_other s.regs a.regWrites⟩
  rw [applyAnswer_regs, hws]
  exact regRead_regWrites_last hid hlast

/-- Settles O41: a fetch reads the two bytes as the stores left them, and no store reaches the table. -/
theorem storeSeenByNextFetch : Obligations.StoreSeenByNextFetch := by
  intro s a hm
  refine ⟨fun addr b => memRead_of_byteAfterStores hm, fun addr => memRead_memStores_other s.memSize a.stores hm,
    fun addr low high hinside hlow hhigh => ?_, fun _ => rfl⟩
  have hlow' := memRead_of_byteAfterStores hm (by omega : addr < s.memSize) hlow
  have hhigh' := memRead_of_byteAfterStores hm (by omega : addr + 1 < s.memSize) hhigh
  rw [applyAnswer_mem, applyAnswer_memSize, readHalfword_eq_some_iff, hlow', hhigh']
  exact ⟨hinside, rfl⟩

/-! ### `AddImm` (R133) -/

section AddImm
variable {i : Instr}

/-- Both forms of `AddImm` are the arm of an external tag. -/
theorem exec_of_addImm (hi : i.value.tag = .addImm) (s : State) :
    exec i s = .next (external Config.execUnit (instrRequest i s) s) := by
  have htag : (instrRequest i s).value.tag = .addImm := hi
  rw [exec_eq_executeTag, executeTag_of_external (by simp [htag]) (by simp [htag])]

theorem value_tag_of_addImm {rd rdn imm : BitVec 3} {imm8 : Byte}
    (h : i = .addImm3 rd rdn imm ∨ i = .addImm8 rdn imm8) : i.value.tag = .addImm := by
  obtain rfl | rfl := h <;> rfl

/-- The registers other than `PC` are those that retirement was given. -/
@[simp] theorem regRead_retire (q : ExecRequest) (o : ExecOutcome) (s : State) (id : RegId) :
    regRead (retire q o s).regs id = regRead s.regs id := by
  obtain ⟨pc, he, -⟩ | ⟨r, he, -⟩ := retire_cases q o s <;> rw [he]
  · cases id <;> rfl
  · rfl

/-- What retirement of a one-halfword tag leaves in `PC` (R127). -/
theorem retire_pc_of_one_halfword {q : ExecRequest} (h : lenOf s.config q.value.tag = 1) (o : ExecOutcome) :
    (retire q o s).regs.pc = s.regs.pc ∨ (retire q o s).regs.pc = q.pc + 2 ∨
      ∃ target, o = .jump target ∧ (retire q o s).regs.pc = target := by
  cases o with
  | sequential => exact .inr (.inl (by rw [retire, advance_of_one_halfword h, setPc_regs]))
  | jump target => exact .inr (.inr ⟨target, rfl, rfl⟩)
  | halt | error code | dataOutOfBounds addr => exact .inl rfl

end AddImm

/-- Settles O31: an external tag without `IMPL` raises `Unimplemented`. -/
theorem addImmUnimplemented : Obligations.AddImmUnimplemented := by
  intro rd rdn imm imm8 s himpl i hi
  have htag := value_tag_of_addImm hi
  rw [exec_of_addImm htag s, external_of_not_implemented (htag.symm ▸ himpl)]
  rfl

/-- Settles O30: the reply decides between the hang and the retirement of the answer, which has one case for each
outcome. -/
theorem addImmIssuesAndRetires : Obligations.AddImmIssuesAndRetires := by
  intro rd rdn imm imm8 s himpl i v h
  obtain ⟨htag, rfl⟩ : i.value.tag = .addImm ∧ v = i.value := by
    obtain ⟨rfl, rfl⟩ | ⟨rfl, rfl⟩ := h <;> exact ⟨rfl, rfl⟩
  refine ⟨_, exec_of_addImm htag s, ?_⟩
  have himpl' : implemented s.config (instrRequest i s).value.tag = true := htag.symm ▸ himpl
  split
  · next hunit => exact external_of_noAnswer himpl' hunit
  · next a hunit =>
    intro u r
    rw [external_of_answered himpl' hunit]
    cases a.outcome with
    | sequential => exact advance_of_one_halfword (lenOf_value_tag s.config i)
    | jump target | halt | error code | dataOutOfBounds addr => rfl

/-- Settles O32: raising and hanging touch none of these; an answer's effects touch what it names, and retirement then
writes `PC` alone. -/
theorem addImmFrame : Obligations.AddImmFrame := by
  intro rd rdn imm imm8 s t i hi hm hexec reply
  rw [exec_of_addImm (value_tag_of_addImm hi) s] at hexec
  obtain rfl := Host.Outcome.next.inj hexec
  refine ⟨external_sameControl _ _ _, ?_⟩
  obtain ⟨-, he⟩ | ⟨-, -, he⟩ | ⟨a, -, hunit, he⟩ := external_cases Config.execUnit (instrRequest i s) s <;> rw [he]
  · exact ⟨fun _ _ => rfl, fun _ _ => rfl, .inl rfl⟩
  · exact ⟨fun _ _ => rfl, fun _ _ => rfl, .inl rfl⟩
  · refine ⟨fun id hid => ?_, fun addr haddr => ?_, ?_⟩
    · rw [regRead_retire]
      exact regRead_regWrites_other s.regs a.regWrites (hid a hunit)
    · rw [retire_mem]
      exact memRead_memStores_of_not_stored hm fun hinside => haddr hinside a hunit
    · have hlen : lenOf (applyAnswer a s).config (instrRequest i s).value.tag = 1 := lenOf_value_tag s.config i
      obtain hpc | hpc | ⟨target, ho, hpc⟩ := retire_pc_of_one_halfword hlen a.outcome
      · exact .inl (hpc.trans (applyAnswer_pc a s))
      · exact .inr (.inl hpc)
      · exact .inr (.inr ⟨a, target, hunit, ho, hpc⟩)

end Sys2Proof.Machine

namespace Sys2Proof.Machine

/-! ## Family 60_exceptions: the terminal results -/

/-- Settles O57: the kinds one by one; `Halted` alone is not fatal. -/
theorem terminalKindCodes : Obligations.TerminalKindCodes := by
  refine ⟨rfl, fun k => ?_⟩
  cases k <;> decide

/-! ### The results raised at a fetch (R153, R156) -/

theorem step_of_running {s : State} (hrun : s.phase = .running) : step s = dispatcherStep (executeDecoded exec) s := by
  rw [step, blockStep_eq, if_pos hrun]

/-- Settles O23: the dispatcher looks at `PC` before it looks at the image. -/
theorem misalignedFetchEndsRun : Obligations.MisalignedFetchEndsRun := fun _ hrun hodd =>
  (step_of_running hrun).trans (dispatcherStep_of_odd hodd)

/-- Settles O24: either fetch raises where its halfword is outside, and both come before Execute. -/
theorem fetchOutOfBoundsEndsRun : Obligations.FetchOutOfBoundsEndsRun :=
  ⟨fun _ hrun heven himage houtside =>
    (step_of_running hrun).trans (dispatcherStep_of_first_outside heven himage houtside),
  fun _ _ _ hfetched hlen houtside =>
    (step_of_running hfetched.running).trans (dispatcherStep_of_second_outside hfetched hlen houtside)⟩

/-! ### The results raised at Execute (R152, R154) -/

/-- Settles O37: `Undefined` has one halfword, so the step is at Execute, which raises. -/
theorem undefinedStep : Obligations.UndefinedStep := by
  intro unit s raw v hfetched htag
  have hlen : lenOf s.config v.tag = 1 := by rw [htag]; rfl
  rw [stepWith_of_fetched unit hfetched (.inl ⟨hlen, rfl⟩), executeTag_of_undefined htag]
  rfl

/-- Settles O36: Execute is the arm of an external tag, which raises without `IMPL`. -/
theorem unimplementedTagStep : Obligations.UnimplementedTagStep := by
  intro unit s raw v raw2 hfetched hsecond hundefined hnop himpl
  rw [stepWith_of_fetched unit hfetched hsecond, executeTag_of_external hundefined hnop,
    external_of_not_implemented himpl]
  rfl

/-! ### Terminal results are precise (R158) -/

section Precise
variable {s t : State} {unit : ExecUnit} {q : ExecRequest}

/-- The kinds of result that the dispatcher itself raises (R152 to R154, R156). -/
def dispatcherKinds : List TermKind := [.misalignedFetch, .fetchOutOfBounds, .undefinedOpcode, .unimplemented]

/-- A result that `t` holds is precise for a step from `s`: `PC` is where it was and the result records it, and if the
dispatcher itself raised it, registers, memory and the count of answers are as they were. -/
def HoldsPreciseResult (s t : State) : Prop :=
  ∀ r, t.result = some r → t.regs.pc = s.regs.pc ∧ r.pc = s.regs.pc ∧
    (r.kind ∈ dispatcherKinds →
      t.regs = s.regs ∧ t.mem = s.mem ∧ t.execCount = s.execCount)

theorem holdsPreciseResult_of_no_result (h : t.result = none) : HoldsPreciseResult s t := by
  intro r hr
  simp [h] at hr

theorem raise_holdsPreciseResult {r : TerminalResult} (hpc : r.pc = s.regs.pc) : HoldsPreciseResult s (raise r s) := by
  intro r' hr
  obtain rfl := Option.some.inj hr
  exact ⟨rfl, hpc, fun _ => ⟨rfl, rfl, rfl⟩⟩

/-- After the effects of an answer only the unit's own kinds of result are raised, and the effects spare `PC` (R126). -/
theorem raise_applyAnswer_holdsPreciseResult {r : TerminalResult} (a : ExecAnswer) (hpc : r.pc = s.regs.pc)
    (hkind : r.kind ∉ dispatcherKinds) : HoldsPreciseResult s (raise r (applyAnswer a s)) := by
  intro r' hr
  obtain rfl := Option.some.inj hr
  exact ⟨applyAnswer_pc a s, hpc, fun h => absurd h hkind⟩

theorem retire_applyAnswer_holdsPreciseResult (hresult : s.result = none) (hpc : q.pc = s.regs.pc) (o : ExecOutcome)
    (a : ExecAnswer) : HoldsPreciseResult s (retire q o (applyAnswer a s)) := by
  cases o with
  | sequential | jump target => exact holdsPreciseResult_of_no_result hresult
  | halt | error code | dataOutOfBounds addr =>
    exact raise_applyAnswer_holdsPreciseResult a hpc (by simp [dispatcherKinds, halted, execError, dataOutOfBounds])

theorem executeTag_holdsPreciseResult (hresult : s.result = none) (hpc : q.pc = s.regs.pc) :
    HoldsPreciseResult s (executeTag unit q s) := by
  obtain ⟨-, he⟩ | ⟨-, he⟩ | ⟨-, -, he⟩ := executeTag_cases unit q s <;> rw [he]
  · exact raise_holdsPreciseResult hpc
  · exact holdsPreciseResult_of_no_result hresult
  · obtain ⟨-, hx⟩ | ⟨-, -, hx⟩ | ⟨a, -, -, hx⟩ := external_cases unit q s <;> rw [hx]
    · exact raise_holdsPreciseResult hpc
    · exact holdsPreciseResult_of_no_result hresult
    · exact retire_applyAnswer_holdsPreciseResult hresult hpc a.outcome a

/-- The requests of a step carry its `PC`, and so do the results that its fetches raise. -/
theorem stepWith_holdsPreciseResult (hrun : s.phase = .running) (hresult : s.result = none)
    (h : stepWith unit s = .next t) : HoldsPreciseResult s t := by
  rw [stepWith_of_running unit hrun] at h
  obtain ⟨rfl, -⟩ | ⟨-, -, ⟨-, rfl⟩ | ⟨raw, v, -, -, ⟨-, -, rfl⟩ | ⟨raw2, -, he⟩⟩⟩ := dispatcherStep_next h
  · exact raise_holdsPreciseResult rfl
  · exact raise_holdsPreciseResult rfl
  · exact raise_holdsPreciseResult rfl
  · obtain rfl := Host.Outcome.next.inj he
    exact executeTag_holdsPreciseResult hresult rfl

end Precise

/-- Settles O44: a step of a run holds no result, or a precise one. -/
theorem terminalResultsArePrecise : Obligations.TerminalResultsArePrecise := fun _ _ _ r hrun hresult h ht =>
  stepWith_holdsPreciseResult hrun hresult h r ht

/-! ### A result is kept until a load (R161, R173) -/

/-- In `Terminated` a build finds no image waiting for it, a `run()` is not admitted and a DEBUG read only replies, so
`load` is the one command that touches the result (R177 to R181). -/
theorem hostCommand_keepsResult {c : HostCommand} {s t : State} (hended : s.phase = .terminated)
    (h : hostCommand c s = .next t) :
    (t.phase = .terminated ∧ t.result = s.result) ∨ ∃ entry image, c = .load entry image := by
  obtain ⟨-, ⟨-, rfl⟩ | ⟨entry, image, hload, -⟩ | ⟨-, hloaded, -⟩ | ⟨T, r, -, rfl, -⟩⟩ := hostCommand_next h
  · exact .inl ⟨by simp [hended], rfl⟩
  · exact .inr ⟨entry, image, hload⟩
  · simp [hended] at hloaded
  · exact .inl ⟨hended, rfl⟩

/-- Settles O48: a block that is not running rests or performs the host's next command. -/
theorem resultKeptUntilLoad : Obligations.ResultKeptUntilLoad := by
  intro s t hended h
  rw [step, blockStep_eq, if_neg (by simp [hended])] at h
  obtain ⟨-, rfl⟩ | ⟨c, rest, hqueue, hc⟩ := hostStep_next h
  · exact .inl ⟨hended, rfl⟩
  · obtain hkept | ⟨entry, image, rfl⟩ := hostCommand_keepsResult (s := { s with hostQueue := rest }) hended hc
    · exact .inl hkept
    · exact .inr ⟨entry, image, rest, hqueue⟩

end Sys2Proof.Machine

namespace Sys2Proof.Machine

/-! ## Family 70_reset_and_hazards: the host's commands outside a run, and a run that hangs -/

/-! ### A request that is never answered (R189) -/

/-- A state that steps to itself is where any number of steps from it ends. -/
theorem run_of_step_eq_self {M : Host.Core} {s : M.State} (h : M.step s = .next s) (k : Nat) : M.run k s = .next s := by
  induction k with
  | zero => rfl
  | succ k ih => rw [Host.Core.run, h]; exact ih

/-- Settles O40: a step whose request is not answered leaves the state of the request. -/
theorem unansweredRequestHangs : Obligations.UnansweredRequestHangs := by
  intro unit s raw v raw2 k hfetched hsecond hundefined hnop himpl hunit
  have hstep : stepWith unit s = .next s := by
    rw [stepWith_of_fetched unit hfetched hsecond, executeTag_of_external hundefined hnop,
      external_of_noAnswer himpl hunit]
  exact run_of_step_eq_self hstep k

/-! ### Which phase admits a command (R177) -/

/-- Every command needs the block at rest, and `run` a loaded one. -/
theorem admitted_iff {p : Phase} {c : HostCommand} :
    admitted p c = true ↔ p ≠ .running ∧ (c = .run → p = .loaded) := by
  cases c with
  | run => cases p <;> simp [admitted]
  | initialise | load | debugRead | dump => simp [admitted]

section Commands
variable {s : State} {c : HostCommand}

theorem hostCommand_run (hloaded : s.phase = .loaded) : hostCommand .run s = .next (hostRun s) := by
  simp [hostCommand, admitted, hloaded]

theorem hostCommand_initialise (hphase : s.phase ≠ .running) : hostCommand .initialise s = .next (hostInitialise s) := by
  simp [hostCommand, admitted, hphase]

/-- Outside a run a load is admitted, and its image and entry decide whether it is performed. -/
theorem hostCommand_load (hphase : s.phase ≠ .running) (entry : Nat) (image : List Byte) :
    hostCommand (.load entry image) s =
      if image.length > 2 ^ 32 - 1 then .refused .imageTooLarge
      else if entry ≥ 2 ^ 32 then .refused .entryTooWide
      else .next (hostLoad (BitVec.ofNat 32 entry) image s) := by
  simp [hostCommand, admitted, hphase]

/-- The phase is the first thing looked at, and no refusal after it is one for the phase. -/
theorem hostCommand_refused_for_phase_iff :
    hostCommand c s = .refused (.commandNotAdmitted s.phase) ↔ admitted s.phase c = false := by
  cases hadmitted : admitted s.phase c with
  | false => simp [hostCommand, hadmitted]
  | true =>
    obtain ⟨hphase, hloaded⟩ := admitted_iff.mp hadmitted
    cases c with
    | initialise => simp [hostCommand_initialise hphase]
    | load entry image => rw [hostCommand_load hphase]; split_ifs <;> simp
    | run => simp [hostCommand_run (hloaded rfl)]
    | debugRead i => rw [hostCommand_debugRead hphase]; cases s.table <;> simp
    | dump => rw [hostCommand_dump hphase]; cases s.table <;> simp

end Commands

/-- Settles O52: a command is refused for its phase where it is not admitted. -/
theorem commandsAdmittedByPhase : Obligations.CommandsAdmittedByPhase := by
  refine fun s => ⟨fun c => ?_, hostCommand_run⟩
  rw [hostCommand_refused_for_phase_iff, ← Bool.not_eq_true, admitted_iff]
  tauto

/-! ### `initialize` (R178, R179) -/

/-- What a build writes depends on the configuration alone, and the first one leaves no phase for the second to change. -/
theorem hostInitialise_idempotent (s : State) : hostInitialise (hostInitialise s) = hostInitialise s := by
  have hphase : (hostInitialise (hostInitialise s)).phase = (hostInitialise s).phase := by
    by_cases hload : s.phase = .uninitialized ∧ s.imageValid = true <;> simp [hload]
  exact congrArg (fun p => { hostInitialise s with phase := p }) hphase

/-- Settles O50: an admitted `initialize` is a build, and only an admitted one leaves a state to build in again. -/
theorem initialiseRebuildsTable : Obligations.InitialiseRebuildsTable := by
  refine ⟨fun s => hostCommand_initialise, fun s t u hs ht => ?_⟩
  rw [hostCommand_initialise (hostCommand_next hs).1] at hs
  rw [hostCommand_initialise (hostCommand_next ht).1] at ht
  obtain rfl := Host.Outcome.next.inj hs
  obtain rfl := Host.Outcome.next.inj ht
  exact hostInitialise_idempotent s

/-! ### `load` (R180) -/

/-- A loaded image reads as its buffer, from address 0. -/
theorem memRead_hostLoad {image : List Byte} {a : Nat} {b : Byte} (h : image[a]? = some b) (entry : Word) (s : State) :
    memRead (hostLoad entry image s).mem a = b := by
  have hread := memRead_memOfBytes 0 image a
  rwa [Nat.zero_add, List.getD_eq_getElem?_getD, h] at hread

/-- Settles O51: the two bounds decide whether the load is performed, and a performed one replaces the image whole. -/
theorem loadTakesImage : Obligations.LoadTakesImage := by
  intro s entry image hphase
  rw [hostCommand_load hphase]
  refine ⟨fun hlarge => if_pos hlarge, fun hlen hwide => ?_, fun hlen hentry => ?_⟩
  · rw [if_neg (by omega), if_pos hwide]
  · rw [if_neg (by omega), if_neg (by omega)]
    exact ⟨_, rfl, fun a b h => memRead_hostLoad h _ s, memWf_memOfBytes 0 image, rfl⟩

/-! ### The block outside a run (R176) -/

/-- Settles O53: outside a run a transition is the host's, and the queue says which. -/
theorem idleBlockPerformsHostCommand : Obligations.IdleBlockPerformsHostCommand := by
  intro s hphase
  have hstep : step s = hostStep s := by rw [step, blockStep_eq, if_neg hphase]
  refine ⟨fun c rest hqueue => ?_, fun hqueue => ?_⟩ <;> rw [hstep, hostStep, hqueue]

end Sys2Proof.Machine
